-- ==== Sys2Proof/Word.lean ====
section
/-! DEFINITION. The word types of the block (00_scope.md R9, R10; 10_state.md R20). Every value is unsigned. -/

namespace Sys2Proof

/-- One byte: a raster sample, a packed byte, a record byte, a host-port datum (R9 SAMPLE_W, DATA_W).
DESIGN CHOICE, safe: R20 names `UInt8`; the model writes the same 256 values as `BitVec 8` (log entry 1). -/
abbrev Byte := BitVec 8

/-- RW and RH (R9 DIM_W = 16). -/
abbrev Dim := BitVec 16

/-- FCOUNT and BCOUNT (R9 CNT_W = 32). -/
abbrev Count := BitVec 32

/-- ERR, 3 bits (10_state.md R34). -/
abbrev ErrCode := BitVec 3

/-- A host-port address (R9 ADDR_W = 10, 20_memory.md R50). -/
abbrev Addr := BitVec 10

/-- An XACT24 word (30_encoding.md R71). -/
abbrev XWord := BitVec 24

/-- One PackedBlock: 5 bytes (R8 BLOCK_BYTES). -/
abbrev PackedBlock := Vector Byte 5

/-- One PackedFrame: 8 PackedBlocks in block order (R8 NBLOCKS). -/
abbrev PackedFrame := Vector PackedBlock 8

/-- The raster: 16 rows of 23 samples, `r[y][x]` (10_state.md R20, R22). -/
abbrev Raster := Vector (Vector Byte 23) 16

/-- The record buffer: 41 bytes (R8 REC_MAX). -/
abbrev RecordBuffer := Vector Byte 41

/-- A DeltaRecord as the bytes it holds, in emission order (00_scope.md R12, R13). -/
abbrev Record := List Byte

end Sys2Proof
end

