-- ==== Sys2Proof/Config.lean ====
section
/-! DEFINITION. The fixed format constants of the block (00_scope.md R8) and the values the spec leaves open
(R9, 10_state.md R39): the open ones have no body, so nothing can be proved about which value they take. -/

namespace Sys2Proof.Config

/-- BLOCK_W (R8). -/
@[simp] abbrev blockW : Nat := 5
/-- BLOCK_H (R8). -/
@[simp] abbrev blockH : Nat := 8
/-- GRID_ROWS (R8). -/
@[simp] abbrev gridRows : Nat := 2
/-- GRID_COLS (R8). -/
@[simp] abbrev gridCols : Nat := 4
/-- NBLOCKS (R8). -/
@[simp] abbrev nBlocks : Nat := 8
/-- BLOCK_BYTES (R8). -/
@[simp] abbrev blockBytes : Nat := 5
/-- FRAME_W (R8): `4 × 5 + 3`. -/
@[simp] abbrev frameW : Nat := 23
/-- FRAME_H (R8): `2 × 8`. -/
@[simp] abbrev frameH : Nat := 16
/-- COL_STRIDE (R8): `BLOCK_W + 1`. -/
@[simp] abbrev colStride : Nat := 6
/-- REC_MAX (R8). -/
@[simp] abbrev recMax : Nat := 41
/-- REC_MIN (R8). -/
@[simp] abbrev recMin : Nat := 1

/-- RASTER byte `(y, x)` after the `n`-th power-on: unspecified (10_state.md R39, 70_reset_and_hazards.md R173),
a free draw for each byte, fixed until written. Safe within a run (log entry 2). -/
opaque powerOnRaster (n y x : Nat) : Byte

/-- CUR byte `j` of block `i` after the `n`-th power-on: unspecified (R39, U4). Log entry 2. -/
opaque powerOnCur (n i j : Nat) : Byte

/-- PREV byte `j` of block `i` after the `n`-th power-on: unspecified (R39, U1). Log entry 2. -/
opaque powerOnPrev (n i j : Nat) : Byte

/-- Whether the per-frame raw size counts the mask byte: the OPEN choice behind RAW_FRAME_BYTES (R9, D17, U11). -/
opaque rawCountsMask : Bool

/-- RAW_FRAME_BYTES (R9): 40 or 41, which of the two is open (log entry 12). -/
def rawFrameBytes : Nat := if rawCountsMask then 41 else 40

end Sys2Proof.Config
end

