-- ==== Sys2Proof/Syntax.lean ====
section
/-! DEFINITION. The syntax: the instructions (opcode_table.json), the words that spell them (30_encoding.md R70,
R71), the events of the outside world, and the host assembly of R77 and R78. -/

namespace Sys2Proof

/-- One constructor per row of opcode_table.json. -/
inductive Instr where
  /-- PACK, CMD8 0x01 (40_packer.md R98). -/
  | pack
  /-- ENCODE, CMD8 0x02 (41_delta_encoder.md R118). -/
  | encode
  /-- FRAME, CMD8 0x03 (42_sequencing.md R132). -/
  | frame
  /-- SRST, CMD8 0x80 (42_sequencing.md R134). -/
  | srst
  /-- wr: the host writes one byte (20_memory.md R57). -/
  | wr (addr : Addr) (data : Byte)
  /-- rd: the host reads one byte (20_memory.md R56). -/
  | rd (addr : Addr)
  deriving DecidableEq, Repr

/-- A word of one of the two formats. Which format a word has is known without reading it (30_encoding.md R76). -/
inductive HostWord where
  /-- CMD8: the byte the host writes to CMD (R70). -/
  | cmd8 (op : Byte)
  /-- XACT24: one host access (R71). -/
  | xact24 (w : XWord)
  deriving DecidableEq, Repr

/-- What the outside world can do to the block (00_scope.md R7, 60_exceptions.md R158). -/
inductive HostEvent where
  /-- The host issues one access. -/
  | access (w : HostWord)
  /-- Power-on reset (70_reset_and_hazards.md R170). -/
  | powerOn
  deriving DecidableEq, Repr

/-- The register names of 20_memory.md R51 that a program line may use (30_encoding.md R77). -/
inductive RegName where
  | raster | rwLo | rwHi | rhLo | rhHi | cmd | status | mask | outLen | fcount | bcount | out | cur | prev
  deriving DecidableEq, Repr

/-- `addr` of R77: a number, or a register name with an optional offset. -/
inductive AddrExpr where
  | num (n : Nat)
  | reg (r : RegName) (offset : Nat)
  deriving DecidableEq, Repr

/-- `stmt` of R77 and the pseudo-instructions of R78. Operands are the numbers as written. -/
inductive Stmt where
  | wr (a : AddrExpr) (v : Nat)
  | rd (a : AddrExpr)
  | pack
  | encode
  | frame
  | srst
  | wr16 (a : AddrExpr) (v : Nat)
  | dims (w h : Nat)
  | setpix (x y v : Nat)
  | fill (a : AddrExpr) (n v : Nat)
  | rd32 (a : AddrExpr)
  | rdrec (n : Nat)
  deriving DecidableEq, Repr

/-- `line` of R77: an optional label, an optional statement, an optional comment. -/
structure Line where
  label : Option (List Char)
  stmt : Option Stmt
  comment : Option (List Char)
  deriving DecidableEq, Repr

end Sys2Proof
end

