-- ==== Sys2Proof/WellFormed.lean ====
section
/-! DEFINITION. Which program lines are well formed: the operand ranges of 30_encoding.md R77 and R78.
An `Instr` needs no check of its own: its address is a 10-bit word and its datum an 8-bit word, so every `Instr` is an
access the host can present (20_memory.md R62: "An address outside 10 bits cannot be presented"). Log entry 16. -/

namespace Sys2Proof

/-- The host-port address a register name stands for (20_memory.md R51). -/
def RegName.base : RegName → Nat
  | .raster => 0x000
  | .rwLo => 0x180
  | .rwHi => 0x181
  | .rhLo => 0x182
  | .rhHi => 0x183
  | .cmd => 0x184
  | .status => 0x185
  | .mask => 0x186
  | .outLen => 0x187
  | .fcount => 0x188
  | .bcount => 0x18C
  | .out => 0x190
  | .cur => 0x1C0
  | .prev => 0x200

/-- The number an address expression stands for: `OUT+k` is `0x190 + k`, and so on (R77). -/
def AddrExpr.value : AddrExpr → Nat
  | .num n => n
  | .reg r offset => r.base + offset

/-- `a` is a host-port address, 0..0x3FF (R77), and so is every one of the `n` addresses from `a` on. -/
def addrsOk (a n : Nat) : Bool := decide (a ≤ 0x3FF) && decide (a + n ≤ 0x400)

/-- `byte` of R77: a number in 0..0xFF. -/
def byteOk (v : Nat) : Bool := decide (v ≤ 0xFF)

/-- `v in 0..0xFFFF` of R78's wr16. -/
def halfOk (v : Nat) : Bool := decide (v ≤ 0xFFFF)

/-- `0 ≤ x ≤ 22, 0 ≤ y ≤ 15` of R78's setpix. -/
def pixelOk (x y : Nat) : Bool := decide (x ≤ 22) && decide (y ≤ 15)

/-- The check on a statement: its operands are in their ranges and every access of its expansion can be presented (R77,
R78). DESIGN CHOICE: R78 gives the `n` of fill and rdrec no least value; `n = 0` is accepted and stands for no access
(log entry 19). -/
def Stmt.wellFormed : Stmt → Bool
  | .wr a v => addrsOk a.value 1 && byteOk v
  | .rd a => addrsOk a.value 1
  | .pack => true
  | .encode => true
  | .frame => true
  | .srst => true
  | .wr16 a v => addrsOk a.value 2 && halfOk v
  | .dims w h => halfOk w && halfOk h
  | .setpix x y v => pixelOk x y && byteOk v
  | .fill a n v => addrsOk a.value n && byteOk v
  | .rd32 a => addrsOk a.value 4
  | .rdrec n => addrsOk (RegName.out.base) n

/-- A line is well formed when its statement, if it has one, is. Labels and comments stand for nothing (R77). -/
def Line.wellFormed (l : Line) : Bool := (l.stmt.map Stmt.wellFormed).getD true

end Sys2Proof
end

