-- ==== Sys2Proof/Decode.lean ====
section
/-! DEFINITION. The decoder of the two formats (30_encoding.md R73, R74), total, rejecting by name, and the encoder
written from the same tables. -/

namespace Sys2Proof

/-- Why a word spells no instruction. -/
inductive WordReject where
  /-- A CMD8 byte outside the opcode map (R75). The BLOCK takes ILLEGAL_COMMAND on it; nothing stops. -/
  | illegalCommand (op : Byte)
  /-- An XACT24 word with bits 19:18 not 00 (R74). -/
  | reservedBits (w : XWord)
  /-- An XACT24 word whose kind is neither 0x0 nor 0x1 (R74). -/
  | unknownKind (w : XWord)
  /-- An XACT24 read whose DATA is not 0x00, so that it matches no row's mask (R71, R74; log entry 8). -/
  | readWithData (w : XWord)
  deriving DecidableEq, Repr

/-- What a word decodes to. -/
inductive Decoded where
  | ok (i : Instr)
  | rejected (why : WordReject)
  deriving DecidableEq, Repr

namespace XWord

/-- K, bits 23..20 (R71). -/
def kind (w : XWord) : BitVec 4 := w.extractLsb' 20 4
/-- Z, bits 19..18 (R71). -/
def zeros (w : XWord) : BitVec 2 := w.extractLsb' 18 2
/-- ADDR, bits 17..8 (R71). -/
def addr (w : XWord) : Addr := w.extractLsb' 8 10
/-- DATA, bits 7..0 (R71). -/
def data (w : XWord) : Byte := w.extractLsb' 0 8
/-- The word with the given fields, `K Z ADDR DATA` from the most significant end (R71). -/
def make (k : BitVec 4) (z : BitVec 2) (a : Addr) (d : Byte) : XWord :=
  k.setWidth 24 <<< 20 ||| z.setWidth 24 <<< 18 ||| a.setWidth 24 <<< 8 ||| d.setWidth 24

end XWord

/-- The CMD8 opcode map: a byte selects a command only if all 8 bits match (R73). -/
def decodeCmd8 (op : Byte) : Decoded :=
  if op = 0x01#8 then .ok .pack
  else if op = 0x02#8 then .ok .encode
  else if op = 0x03#8 then .ok .frame
  else if op = 0x80#8 then .ok .srst
  else .rejected (.illegalCommand op)

/-- The XACT24 map (R74). -/
def decodeXact24 (w : XWord) : Decoded :=
  if XWord.zeros w ≠ 0#2 then .rejected (.reservedBits w)
  else if XWord.kind w = 0x1#4 then .ok (.wr (XWord.addr w) (XWord.data w))
  else if XWord.kind w = 0x0#4 then
    if XWord.data w = 0x00#8 then .ok (.rd (XWord.addr w)) else .rejected (.readWithData w)
  else .rejected (.unknownKind w)

/-- The decoder, total on every word of either format. -/
def decode : HostWord → Decoded
  | .cmd8 op => decodeCmd8 op
  | .xact24 w => decodeXact24 w

/-- The encoder: the word that spells an instruction (R73, R74). -/
def encode : Instr → HostWord
  | .pack => .cmd8 0x01#8
  | .encode => .cmd8 0x02#8
  | .frame => .cmd8 0x03#8
  | .srst => .cmd8 0x80#8
  | .wr addr data => .xact24 (XWord.make 0x1#4 0#2 addr data)
  | .rd addr => .xact24 (XWord.make 0x0#4 0#2 addr 0x00#8)

/-- One row of opcode_table.json: `word &&& mask = value`, in a word of `bits` bits. -/
structure TableRow where
  bits : Nat
  value : Nat
  mask : Nat
  deriving DecidableEq, Repr

/-- The row of an instruction (opcode_table.json, match and mask). -/
def Instr.row : Instr → TableRow
  | .pack => ⟨8, 0x01, 0xFF⟩
  | .encode => ⟨8, 0x02, 0xFF⟩
  | .frame => ⟨8, 0x03, 0xFF⟩
  | .srst => ⟨8, 0x80, 0xFF⟩
  | .wr _ _ => ⟨24, 0x100000, 0xFC0000⟩
  | .rd _ => ⟨24, 0x000000, 0xFC00FF⟩

/-- The width of a word, in bits (R76). -/
def HostWord.bits : HostWord → Nat
  | .cmd8 _ => 8
  | .xact24 _ => 24

/-- A word read as one number, bit 0 its least significant bit. -/
def HostWord.value : HostWord → Nat
  | .cmd8 op => op.toNat
  | .xact24 w => w.toNat

/-- The word of a table row: 8 bits are a CMD8 byte, more are an XACT24 word. -/
def wordOfTable (nbits w : Nat) : HostWord :=
  if nbits = 8 then .cmd8 (BitVec.ofNat 8 w) else .xact24 (BitVec.ofNat 24 w)

/-- The instruction of a decoded word, if there is one. -/
def Decoded.toOption : Decoded → Option Instr
  | .ok i => some i
  | .rejected _ => none

/-- The instruction the decoder reads from a table word of `nbits` bits (8 or 24; 30_encoding.md R76). -/
def decodeTableWord (nbits w : Nat) : Option Instr :=
  if nbits = 8 ∨ nbits = 24 then (decode (wordOfTable nbits w)).toOption else none

end Sys2Proof
end

