-- ==== Sys2Proof/Machine/State.lean ====
section
/-! DEFINITION. The state: the block's fourteen elements exactly as 10_state.md R20 lists them, and beside them the
model's own account of the outside world. All of it plain data. -/

namespace Sys2Proof.Machine

/-- The block's state (10_state.md R20: "exactly the following record. Nothing else is state"). -/
structure Block where
  /-- RASTER, `raster[y][x]` (R22). -/
  raster : Raster
  /-- RW (R23). -/
  rw : Dim
  /-- RH (R24). -/
  rh : Dim
  /-- CUR, `cur[i][j]` (R25). -/
  cur : PackedFrame
  /-- CUR_VALID (R26). -/
  curValid : Bool
  /-- PREV, `prev[i][j]` (R27). -/
  prev : PackedFrame
  /-- PREV_VALID (R28). -/
  prevValid : Bool
  /-- MASK (R29). -/
  mask : Byte
  /-- OUT (R30). -/
  out : RecordBuffer
  /-- OUT_LEN (R31). -/
  outLen : Byte
  /-- FCOUNT (R32). -/
  fcount : Count
  /-- BCOUNT (R33). -/
  bcount : Count
  /-- FAULT (R35). -/
  fault : Bool
  /-- ERR (R36). -/
  err : ErrCode
  deriving DecidableEq, Repr

/-- The whole state of the model. -/
structure State where
  /-- The hardware (10_state.md R20). -/
  block : Block
  /-- The MODEL's own field: what the host is about to do, oldest first (00_scope.md R7; log entry 4). -/
  pending : List HostEvent
  /-- The MODEL's own field: the bytes the port has returned to the host, oldest first (20_memory.md R56; log entry 5). -/
  replies : List Byte
  /-- The MODEL's own field: the free-value counter, the power-on whose draws RASTER, CUR and PREV started from
  (10_state.md R39; log entry 3). -/
  powerOns : Nat
  deriving DecidableEq, Repr

/-- The fault causes of the BLOCK (10_state.md R36, 60_exceptions.md R150). Taking one gives a next state (R166). -/
inductive Cause where
  /-- ERR 1, raised by PACK and FRAME (R152). -/
  | geometryMismatch
  /-- ERR 2, raised by ENCODE (R153). -/
  | sequence
  /-- ERR 3, raised by a CMD write (R154). -/
  | illegalCommand
  deriving DecidableEq, Repr

/-- How the MODEL could stop with a fault: in no way at all. 60_exceptions.md R166: a faulted block is a state, the
block "never gets stuck", and "Every command ends". Nothing raises a constructor of this type, because it has none
(log entry 11). -/
inductive Fault where
  deriving DecidableEq, Repr

/-- How the model can refuse. -/
inductive Refusal where
  /-- Raised by an arm of `exec` for an instruction that has no meaning yet; safe. No arm of this model raises it. -/
  | notModelled (mnemonic : String)
  /-- Raised by `step` alone, for an XACT24 word that spells no access; safe. 60_exceptions.md R166: "An XACT24 word that
  spells no access (30_encoding.md rule R74) is refused by name at the decoder." -/
  | noAccess (why : WordReject)
  deriving DecidableEq, Repr

/-- The block after the `n`-th power-on reset: the "power-on reset" column of 10_state.md R39 (70_reset_and_hazards.md
R170). The bytes that column calls unspecified are free values (log entry 2). -/
def Block.powerOn (n : Nat) : Block where
  raster := Vector.ofFn fun y => Vector.ofFn fun x => Config.powerOnRaster n y.val x.val
  rw := 0x0000#16
  rh := 0x0000#16
  cur := Vector.ofFn fun i => Vector.ofFn fun j => Config.powerOnCur n i.val j.val
  curValid := false
  prev := Vector.ofFn fun i => Vector.ofFn fun j => Config.powerOnPrev n i.val j.val
  prevValid := false
  mask := 0x00#8
  out := Vector.replicate 41 0x00#8
  outLen := 0x00#8
  fcount := 0#32
  bcount := 0#32
  fault := false
  err := 0#3

/-- The machine right after power-on reset. The host has issued nothing yet (log entries 3, 4, 5). -/
def State.reset : State where
  block := Block.powerOn 0
  pending := []
  replies := []
  powerOns := 0

end Sys2Proof.Machine
end

