-- ==== Sys2Proof/Machine/Operands.lean ====
section
/-! DEFINITION. The operand forms: which element of the state a host-port address names (20_memory.md R51–R53), and the
byte lanes of a multi-byte register (R59). -/

namespace Sys2Proof.Machine

/-- The entries of the address map (20_memory.md R51). -/
inductive Region where
  | raster (y : Fin 16) (x : Fin 23)
  | rwLo
  | rwHi
  | rhLo
  | rhHi
  | cmd
  | status
  | mask
  | outLen
  | fcount (k : Fin 4)
  | bcount (k : Fin 4)
  | out (k : Fin 41)
  | cur (i : Fin 8) (j : Fin 5)
  | prev (i : Fin 8) (j : Fin 5)
  | reserved
  deriving DecidableEq, Repr

/-- The entry an address falls in (R51, with R52 for RASTER and R53 for CUR and PREV). Every address not listed is
reserved (R58). -/
def region (a : Addr) : Region :=
  if h : a.toNat ≤ 0x16F then .raster ⟨a.toNat / 23, by omega⟩ ⟨a.toNat % 23, by omega⟩
  else if a.toNat = 0x180 then .rwLo
  else if a.toNat = 0x181 then .rwHi
  else if a.toNat = 0x182 then .rhLo
  else if a.toNat = 0x183 then .rhHi
  else if a.toNat = 0x184 then .cmd
  else if a.toNat = 0x185 then .status
  else if a.toNat = 0x186 then .mask
  else if a.toNat = 0x187 then .outLen
  else if h : 0x188 ≤ a.toNat ∧ a.toNat ≤ 0x18B then .fcount ⟨a.toNat - 0x188, by omega⟩
  else if h : 0x18C ≤ a.toNat ∧ a.toNat ≤ 0x18F then .bcount ⟨a.toNat - 0x18C, by omega⟩
  else if h : 0x190 ≤ a.toNat ∧ a.toNat ≤ 0x1B8 then .out ⟨a.toNat - 0x190, by omega⟩
  else if h : 0x1C0 ≤ a.toNat ∧ a.toNat ≤ 0x1E7 then
    .cur ⟨(a.toNat - 0x1C0) / 5, by omega⟩ ⟨(a.toNat - 0x1C0) % 5, by omega⟩
  else if h : 0x200 ≤ a.toNat ∧ a.toNat ≤ 0x227 then
    .prev ⟨(a.toNat - 0x200) / 5, by omega⟩ ⟨(a.toNat - 0x200) % 5, by omega⟩
  else .reserved

/-- The address of CMD (R51). -/
def cmdAddr : Addr := 0x184#10

/-- The address of STATUS (R51). -/
def statusAddr : Addr := 0x185#10

/-- The address of the sample of pixel `(x, y)`: `y × 23 + x` (R52). -/
def rasterAddr (y : Fin 16) (x : Fin 23) : Addr := BitVec.ofNat 10 (y.val * 23 + x.val)

/-- The address of `CUR[i][j]` (R53). -/
def curAddr (i : Fin 8) (j : Fin 5) : Addr := BitVec.ofNat 10 (0x1C0 + 5 * i.val + j.val)

/-- The address of `PREV[i][j]` (R53). -/
def prevAddr (i : Fin 8) (j : Fin 5) : Addr := BitVec.ofNat 10 (0x200 + 5 * i.val + j.val)

/-- The address of `OUT[k]` (R51). -/
def outAddr (k : Fin 41) : Addr := BitVec.ofNat 10 (0x190 + k.val)

/-- Byte `k` of a 32-bit register, `v[8k+7 : 8k]` (R56, R59). -/
def countByte (v : Count) (k : Fin 4) : Byte := v.extractLsb' (8 * k.val) 8

/-- The low byte of a 16-bit register (R51, R59). -/
def loByte (v : Dim) : Byte := v.extractLsb' 0 8

/-- The high byte of a 16-bit register (R51, R59). -/
def hiByte (v : Dim) : Byte := v.extractLsb' 8 8

/-- `v[7:0] <- d` (R57). -/
def withLo (v : Dim) (d : Byte) : Dim := (v &&& 0xFF00#16) ||| d.setWidth 16

/-- `v[15:8] <- d` (R57). -/
def withHi (v : Dim) (d : Byte) : Dim := (v &&& 0x00FF#16) ||| d.setWidth 16 <<< 8

/-- `RASTER[y][x] <- d` (R57). -/
def withSample (r : Raster) (y : Fin 16) (x : Fin 23) (d : Byte) : Raster := r.set y (r[y].set x d)

end Sys2Proof.Machine
end

