-- ==== Sys2Proof/Machine/Flags.lean ====
section
/-! DEFINITION. The status bits: the fault codes (10_state.md R36) and the STATUS byte (R34). -/

namespace Sys2Proof.Machine

/-- The cause codes of ERR (10_state.md R36). Code 0 is "no fault"; 4..7 are never produced. -/
def Cause.code : Cause → ErrCode
  | .geometryMismatch => 1#3
  | .sequence => 2#3
  | .illegalCommand => 3#3

/-- `STATUS = FAULT | (ERR << 1) | (PREV_VALID << 4) | (CUR_VALID << 5)`, bits 7:6 zero (10_state.md R34), assembled on
each read. -/
def Block.status (b : Block) : Byte :=
  (BitVec.ofBool b.fault).setWidth 8 ||| b.err.setWidth 8 <<< 1 ||| (BitVec.ofBool b.prevValid).setWidth 8 <<< 4 |||
    (BitVec.ofBool b.curValid).setWidth 8 <<< 5

/-- The number of 1 bits of a byte (00_scope.md R11). -/
def popcount (m : Byte) : Nat := (List.finRange 8).countP fun i => m.getLsbD i.val

end Sys2Proof.Machine
end

