-- ==== Sys2Proof/Machine/Ops.lean ====
section
/-! DEFINITION. The shared operations: taking a fault and the way back from one, the FAULT guard of the dispatch, reading
one byte through the host port, and how an operation on the block becomes a step's outcome. -/

namespace Sys2Proof.Machine

/-- What a meaning answers. -/
abbrev Result := Host.Outcome State Fault Refusal

/-- `raise Fault(c)` (60_exceptions.md R151): FAULT and ERR, and the command ends. No vector, no saved pc, no mode. -/
def Block.raise (b : Block) (c : Cause) : Block := { b with fault := true, err := c.code }

/-- The way back from a fault, and the start of a session: what SRST does in every state (42_sequencing.md R134,
60_exceptions.md R158). RASTER, RW, RH and the bytes of CUR and PREV stay. -/
def Block.sessionReset (b : Block) : Block :=
  { b with
    curValid := false, prevValid := false
    mask := 0x00#8, out := Vector.replicate 41 0x00#8, outLen := 0x00#8
    fcount := 0#32, bcount := 0#32
    fault := false, err := 0#3 }

/-- While FAULT = 1 a command other than SRST changes nothing at all (42_sequencing.md R130, 60_exceptions.md R157). -/
def unlessFaulted (f : Block → Block) (b : Block) : Block := if b.fault then b else f b

/-- `MemRead(a, 1)`: the byte at a host-port address (20_memory.md R56). CMD and the reserved addresses read 0x00. -/
def Block.read (b : Block) (a : Addr) : Byte :=
  match region a with
  | .raster y x => b.raster[y][x]
  | .rwLo => loByte b.rw
  | .rwHi => hiByte b.rw
  | .rhLo => loByte b.rh
  | .rhHi => hiByte b.rh
  | .cmd => 0x00#8
  | .status => b.status
  | .mask => b.mask
  | .outLen => b.outLen
  | .fcount k => countByte b.fcount k
  | .bcount k => countByte b.bcount k
  | .out k => b.out[k]
  | .cur i j => b.cur[i][j]
  | .prev i j => b.prev[i][j]
  | .reserved => 0x00#8

/-- The step whose whole effect is `f` on the block: one atomic step (20_memory.md R55). -/
def State.onBlock (s : State) (f : Block → Block) : Result := .next { s with block := f s.block }

/-- The port answers the host with one byte; the block does not change (20_memory.md R56). -/
def State.reply (s : State) (v : Byte) : Result := .next { s with replies := s.replies ++ [v] }

/-- Power-on reset (70_reset_and_hazards.md R170), with free values of its own for RASTER, CUR and PREV. -/
def State.powerCycle (s : State) : Result :=
  .next { s with block := Block.powerOn (s.powerOns + 1), powerOns := s.powerOns + 1 }

end Sys2Proof.Machine
end

