-- ==== Sys2Proof/Machine/Packer.lean ====
section
/-! DEFINITION. The frame packer and PACK (40_packer.md). -/

namespace Sys2Proof.Machine

/-- A raster is acceptable when RW = 23 and RH = 16 (R90). -/
def Block.geometryOk (b : Block) : Bool :=
  b.rw = BitVec.ofNat 16 Config.frameW && b.rh = BitVec.ofNat 16 Config.frameH

/-- The raster column of local column `dx` of block `b`: `x_from + dx`, `x_from = 6 × (b mod 4)` (R91). -/
def pixelX (b : Fin 8) (dx : Fin 5) : Fin 23 := ⟨Config.colStride * (b.val % Config.gridCols) + dx.val, by
  have := dx.isLt; have := b.isLt; simp only [Config.colStride, Config.gridCols]; omega⟩

/-- The raster row of local row `dy` of block `b`: `y_from + dy`, `y_from = 8 × (b / 4)` (R91). -/
def pixelY (b : Fin 8) (dy : Fin 8) : Fin 16 := ⟨Config.blockH * (b.val / Config.gridCols) + dy.val, by
  have := dy.isLt; have := b.isLt; simp only [Config.blockH, Config.gridCols]; omega⟩

/-- A pixel is on exactly when its sample is 0 (R93). -/
def pixelOn (r : Raster) (y : Fin 16) (x : Fin 23) : Bool := r[y][x] = 0x00#8

/-- The local index `i = (y - y_from) × 5 + (x - x_from)`, 0..39 (R94). -/
def localIndex (dy : Fin 8) (dx : Fin 5) : Fin 40 := ⟨dy.val * Config.blockW + dx.val, by
  have := dy.isLt; have := dx.isLt; simp only [Config.blockW]; omega⟩

/-- `B[i / 8] <- B[i / 8] | (1 << (7 - i mod 8))` (R96). -/
def setLocal (B : PackedBlock) (i : Fin 40) : PackedBlock :=
  B.set (i.val / 8) (B[i.val / 8] ||| 1#8 <<< (7 - i.val % 8))

/-- The inner body of R96's loops: one pixel of one block. -/
def packPixel (r : Raster) (b : Fin 8) (dy : Fin 8) (B : PackedBlock) (dx : Fin 5) : PackedBlock :=
  if pixelOn r (pixelY b dy) (pixelX b dx) then setLocal B (localIndex dy dx) else B

/-- `PackBlock(b)` (R96): the two loops, rows outside, columns inside. -/
def packBlock (r : Raster) (b : Fin 8) : PackedBlock :=
  (List.finRange 8).foldl (fun B dy => (List.finRange 5).foldl (packPixel r b dy) B) (Vector.replicate 5 0x00#8)

/-- `PackFrame()` (R96, R97): a function of RASTER alone. -/
def packFrame (r : Raster) : PackedFrame := Vector.ofFn fun b => packBlock r b

/-- PACK (R98): the geometry check, then CUR and CUR_VALID. -/
def Block.pack (b : Block) : Block :=
  if b.geometryOk then { b with cur := packFrame b.raster, curValid := true }
  else { b with curValid := false }.raise .geometryMismatch

/-- PACK, written to CMD (R98, 42_sequencing.md R130). -/
def execPack (s : State) : Result := s.onBlock (unlessFaulted Block.pack)

end Sys2Proof.Machine
end

