-- ==== Sys2Proof/Machine/DeltaEncoder.lean ====
section
/-! DEFINITION. The block delta comparator, the packed-frame multiplexer and ENCODE (41_delta_encoder.md). -/

namespace Sys2Proof.Machine

/-- `Compare(i)` (R112): XOR the 5 byte pairs, OR the results, and ask whether anything is left. -/
def blockDiffers (p q : PackedBlock) : Bool :=
  (List.finRange 5).foldl (fun acc j => acc ||| (p[j] ^^^ q[j])) 0x00#8 != 0x00#8

/-- The byte whose bit `i` has weight `1 << i` and is `chg[i]` (R113). -/
def maskOf (chg : Fin 8 → Bool) : Byte :=
  (List.finRange 8).foldl (fun m i => m ||| (if chg i then 1#8 <<< i.val else 0#8)) 0#8

/-- MASK_new: `chg[i] = first or Compare(i)` (R113). -/
def changeMask (first : Bool) (cur prev : PackedFrame) : Byte :=
  maskOf fun i => first || blockDiffers cur[i] prev[i]

/-- The payload: the blocks the mask selects, in ascending block order, each in byte order (R115). -/
def payload (m : Byte) (cur : PackedFrame) : Record :=
  (List.finRange 8).flatMap fun i => if m.getLsbD i.val then cur[i].toList else []

/-- `R` of `Emit(MASK_new)`: the mask byte, then the payload (R115). -/
def recordOf (m : Byte) (cur : PackedFrame) : Record := m :: payload m cur

/-- OUT after `Emit`: the record, then 0x00 to the end of the buffer (R115). -/
def bufferOf (r : Record) : RecordBuffer := Vector.ofFn fun k => r.getD k.val 0x00#8

/-- `off(i) = 1 + 5 × popcount(MASK_new & ((1 << i) - 1))` (R114). -/
def recordOffset (m : Byte) (i : Fin 8) : Nat := 1 + 5 * popcount (m &&& (1#8 <<< i.val - 1#8))

/-- `Emit(MASK_new)` (R115): MASK, OUT and OUT_LEN. -/
def Block.emit (b : Block) (m : Byte) : Block :=
  let r := recordOf m b.cur
  { b with mask := m, out := bufferOf r, outLen := BitVec.ofNat 8 r.length }

/-- The current frame becomes the previous one and is consumed (R116). -/
def Block.consume (b : Block) : Block := { b with prev := b.cur, prevValid := true, curValid := false }

/-- The accounting, modulo 2^32 (R117). -/
def Block.account (b : Block) : Block :=
  { b with fcount := b.fcount + 1#32, bcount := b.bcount + b.outLen.setWidth 32 }

/-- ENCODE (R118): the sequence check, then comparator, multiplexer, previous frame and accounting. -/
def Block.encode (b : Block) : Block :=
  if b.curValid then ((b.emit (changeMask (!b.prevValid) b.cur b.prev)).consume).account
  else b.raise .sequence

/-- ENCODE, written to CMD (R118, 42_sequencing.md R130). -/
def execEncode (s : State) : Result := s.onBlock (unlessFaulted Block.encode)

end Sys2Proof.Machine
end

