-- ==== Sys2Proof/Machine/Sequencing.lean ====
section
/-! DEFINITION. Command dispatch, FRAME, SRST and the illegal command (42_sequencing.md). -/

namespace Sys2Proof.Machine

/-- FRAME (R132): PACK, and ENCODE unless PACK ended the command with a fault. Run only while FAULT = 0, so FAULT = 1
after PACK means that PACK raised it. -/
def Block.packThenEncode (b : Block) : Block := if b.pack.fault then b.pack else b.pack.encode

/-- A CMD byte outside the opcode map, while FAULT = 0 (R135). -/
def Block.illegal (b : Block) : Block := b.raise .illegalCommand

/-- `Command(v)` (R130): every host write of a byte to CMD. -/
def Block.command (b : Block) (v : Byte) : Block :=
  if b.fault then
    if v = 0x80#8 then b.sessionReset else b
  else if v = 0x01#8 then b.pack
  else if v = 0x02#8 then b.encode
  else if v = 0x03#8 then b.packThenEncode
  else if v = 0x80#8 then b.sessionReset
  else b.illegal

/-- FRAME, written to CMD (R132, R130). -/
def execFrame (s : State) : Result := s.onBlock (unlessFaulted Block.packThenEncode)

/-- SRST, written to CMD (R134): it runs in every state. -/
def execSrst (s : State) : Result := s.onBlock Block.sessionReset

end Sys2Proof.Machine
end

