-- ==== Sys2Proof/Machine/HostPort.lean ====
section
/-! DEFINITION. The host's accesses, wr and rd (20_memory.md). -/

namespace Sys2Proof.Machine

/-- `MemWrite(a, 1, v)` (R57): RASTER, RW and RH take the byte in every state, CMD runs a command, and a read-only or
reserved address ignores the write. -/
def Block.write (b : Block) (a : Addr) (v : Byte) : Block :=
  match region a with
  | .raster y x => { b with raster := withSample b.raster y x v }
  | .rwLo => { b with rw := withLo b.rw v }
  | .rwHi => { b with rw := withHi b.rw v }
  | .rhLo => { b with rh := withLo b.rh v }
  | .rhHi => { b with rh := withHi b.rh v }
  | .cmd => b.command v
  | .status => b
  | .mask => b
  | .outLen => b
  | .fcount _ => b
  | .bcount _ => b
  | .out _ => b
  | .cur _ _ => b
  | .prev _ _ => b
  | .reserved => b

/-- wr (R57, R55): one host write is one step. -/
def execWr (a : Addr) (v : Byte) (s : State) : Result := s.onBlock fun b => b.write a v

/-- rd (R56): the port answers the byte; no state of the block changes. -/
def execRd (a : Addr) (s : State) : Result := s.reply (s.block.read a)

end Sys2Proof.Machine
end

