-- ==== Sys2Proof/Machine/Fetch.lean ====
section
/-! DEFINITION. Where the next instruction comes from: the host's next event. The block fetches nothing itself
(10_state.md R21); the host issues one access after another (20_memory.md R63, 42_sequencing.md R141). -/

namespace Sys2Proof.Machine

/-- The host's next event and the state with it taken from the list; none when the host issues nothing. -/
def State.nextEvent (s : State) : Option (HostEvent × State) :=
  match s.pending with
  | [] => none
  | e :: rest => some (e, { s with pending := rest })

/-- Nothing pending: the block is idle and "holds all its state while idle" (60_exceptions.md R165, 00_scope.md R7). -/
def State.idle (s : State) : Result := .next s

/-- A word the decoder rejects. An undefined CMD8 byte is still a write to CMD: the block takes ILLEGAL_COMMAND, or
ignores it while FAULT = 1 (42_sequencing.md R135, R130). An XACT24 word that spells no access never reaches the block:
it is refused by name (30_encoding.md R74, 60_exceptions.md R166). -/
def State.rejectedWord (s : State) (why : WordReject) : Result :=
  match why with
  | .illegalCommand _ => s.onBlock (unlessFaulted Block.illegal)
  | .reservedBits _ => .refused (.noAccess why)
  | .unknownKind _ => .refused (.noAccess why)
  | .readWithData _ => .refused (.noAccess why)

/-- `s` with the word issued as the host's very next access. -/
def State.withNextWord (s : State) (w : HostWord) : State := { s with pending := .access w :: s.pending }

end Sys2Proof.Machine
end

