-- ==== Sys2Proof/Machine/Step.lean ====
section
/-! DEFINITION. One step: the host's next event, run to completion (20_memory.md R55). -/

namespace Sys2Proof.Machine

/-- One word the host issues: decode it and run it. -/
def runWord (w : HostWord) (s : State) : Host.Outcome State Fault Refusal :=
  match decode w with
  | .ok i => exec i s
  | .rejected why => s.rejectedWord why

/-- One event of the outside world. -/
def runEvent (e : HostEvent) (s : State) : Host.Outcome State Fault Refusal :=
  match e with
  | .access w => runWord w s
  | .powerOn => s.powerCycle

/-- One step of the machine. -/
def step (s : State) : Host.Outcome State Fault Refusal :=
  match s.nextEvent with
  | none => s.idle
  | some (e, s') => runEvent e s'

/-- `s` with the instruction word `w` of `nbits` bits issued as the host's next access (log entry 4). -/
def State.withFetchWord (s : State) (nbits w : Nat) : State := s.withNextWord (wordOfTable nbits w)

end Sys2Proof.Machine
end

