-- ==== Sys2Proof/Machine/Assembly.lean ====
section
/-! DEFINITION. The host assembly of 30_encoding.md R77 and R78: what a line stands for, and reading a line's text. -/

namespace Sys2Proof.Machine

/-- The address a number stands for. -/
def addrOf (n : Nat) : Addr := BitVec.ofNat 10 n

/-- `wr a, v` (R77). -/
def wrOf (a v : Nat) : Instr := .wr (addrOf a) (BitVec.ofNat 8 v)

/-- `wr16 a, v` (R78): `wr a, v & 0xFF` ; `wr a+1, v >> 8`. -/
def wr16Of (a v : Nat) : List Instr := [wrOf a (v &&& 0xFF), wrOf (a + 1) (v >>> 8)]

/-- `n` reads from `a` on. -/
def readsFrom (a n : Nat) : List Instr := (List.range n).map fun k => .rd (addrOf (a + k))

/-- The expansion of a statement (R77, R78): a fixed list of accesses. A pseudo-instruction that names a command is the
write of its byte to CMD. -/
def expand : Stmt → List Instr
  | .wr a v => [wrOf a.value v]
  | .rd a => [.rd (addrOf a.value)]
  | .pack => [wrOf RegName.cmd.base 0x01]
  | .encode => [wrOf RegName.cmd.base 0x02]
  | .frame => [wrOf RegName.cmd.base 0x03]
  | .srst => [wrOf RegName.cmd.base 0x80]
  | .wr16 a v => wr16Of a.value v
  | .dims w h => wr16Of RegName.rwLo.base w ++ wr16Of RegName.rhLo.base h
  | .setpix x y v => [wrOf (y * 23 + x) v]
  | .fill a n v => (List.range n).map fun k => wrOf (a.value + k) v
  | .rd32 a => readsFrom a.value 4
  | .rdrec n => readsFrom RegName.out.base n

/-- The accesses of a line: none where it has no statement, and no answer where it is ill formed. -/
def Line.accesses (l : Line) : Option (List Instr) :=
  if l.wellFormed then some ((l.stmt.map expand).getD []) else none

/-- The words of a program, line after line; no answer where a line is ill formed. -/
def assemble : List Line → Option (List HostWord)
  | [] => some []
  | l :: ls =>
    match Line.accesses l, assemble ls with
    | some is, some ws => some (is.map encode ++ ws)
    | _, _ => none

/-! Text. R77 gives the grammar; where it leaves the white space and the letters of a hexadecimal number open, log
entry 15 says what is read. -/

/-- White space between the parts of a line. -/
def isBlank (c : Char) : Bool := c = ' ' || c = '\t'

/-- A text without the white space around it. -/
def trim (cs : List Char) : List Char := ((cs.dropWhile isBlank).reverse.dropWhile isBlank).reverse

/-- The parts of a text between the separators `sep`. -/
def splitAtChar (sep : Char) : List Char → List (List Char)
  | [] => [[]]
  | c :: cs =>
    if c = sep then [] :: splitAtChar sep cs
    else
      match splitAtChar sep cs with
      | [] => [[c]]
      | p :: ps => (c :: p) :: ps

/-- The value of a digit in the given base, decimal or hexadecimal. -/
def digitValue (base : Nat) (c : Char) : Option Nat :=
  let n := c.toNat
  let v :=
    if 48 ≤ n ∧ n ≤ 57 then n - 48
    else if 65 ≤ n ∧ n ≤ 70 then n - 55
    else if 97 ≤ n ∧ n ≤ 102 then n - 87
    else base
  if v < base then some v else none

/-- Digits, most significant first, after the value read so far. -/
def digitsValue (base : Nat) : Nat → List Char → Option Nat
  | acc, [] => some acc
  | acc, c :: cs =>
    match digitValue base c with
    | some v => digitsValue base (acc * base + v) cs
    | none => none

/-- `number := decimal | "0x" hex` (R77), with at least one digit. -/
def parseNumber : List Char → Option Nat
  | [] => none
  | '0' :: 'x' :: d :: ds => digitsValue 16 0 (d :: ds)
  | d :: ds => digitsValue 10 0 (d :: ds)

/-- The register names of 20_memory.md R51. -/
def parseReg (cs : List Char) : Option RegName :=
  if cs = ['R', 'A', 'S', 'T', 'E', 'R'] then some .raster
  else if cs = ['R', 'W', '_', 'L', 'O'] then some .rwLo
  else if cs = ['R', 'W', '_', 'H', 'I'] then some .rwHi
  else if cs = ['R', 'H', '_', 'L', 'O'] then some .rhLo
  else if cs = ['R', 'H', '_', 'H', 'I'] then some .rhHi
  else if cs = ['C', 'M', 'D'] then some .cmd
  else if cs = ['S', 'T', 'A', 'T', 'U', 'S'] then some .status
  else if cs = ['M', 'A', 'S', 'K'] then some .mask
  else if cs = ['O', 'U', 'T', '_', 'L', 'E', 'N'] then some .outLen
  else if cs = ['F', 'C', 'O', 'U', 'N', 'T'] then some .fcount
  else if cs = ['B', 'C', 'O', 'U', 'N', 'T'] then some .bcount
  else if cs = ['O', 'U', 'T'] then some .out
  else if cs = ['C', 'U', 'R'] then some .cur
  else if cs = ['P', 'R', 'E', 'V'] then some .prev
  else none

/-- `addr` (R77): a number, or a register name, optionally `+` offset. DESIGN CHOICE: R77's line can be read with the
offset behind a plain number too, and does not say what an offset is; here an offset stands behind a register name only
and is a `number`, and `0x190+5` is refused (log entry 15). -/
def parseAddr (cs : List Char) : Option AddrExpr :=
  match (splitAtChar '+' cs).map trim with
  | [p] =>
    match parseReg p with
    | some r => some (.reg r 0)
    | none => (parseNumber p).map .num
  | [p, q] =>
    match parseReg p, parseNumber q with
    | some r, some k => some (.reg r k)
    | _, _ => none
  | _ => none

/-- A statement from its mnemonic, lower case (R77), and its operands. -/
def parseStmt (mnemonic : List Char) (operands : List (List Char)) : Option Stmt :=
  match mnemonic, operands with
  | ['w', 'r'], [a, v] => (parseAddr a).bind fun a => (parseNumber v).map fun v => .wr a v
  | ['r', 'd'], [a] => (parseAddr a).map .rd
  | ['p', 'a', 'c', 'k'], [] => some .pack
  | ['e', 'n', 'c', 'o', 'd', 'e'], [] => some .encode
  | ['f', 'r', 'a', 'm', 'e'], [] => some .frame
  | ['s', 'r', 's', 't'], [] => some .srst
  | ['w', 'r', '1', '6'], [a, v] => (parseAddr a).bind fun a => (parseNumber v).map fun v => .wr16 a v
  | ['d', 'i', 'm', 's'], [w, h] => (parseNumber w).bind fun w => (parseNumber h).map fun h => .dims w h
  | ['s', 'e', 't', 'p', 'i', 'x'], [x, y, v] =>
    (parseNumber x).bind fun x => (parseNumber y).bind fun y => (parseNumber v).map fun v => .setpix x y v
  | ['f', 'i', 'l', 'l'], [a, n, v] =>
    (parseAddr a).bind fun a => (parseNumber n).bind fun n => (parseNumber v).map fun v => .fill a n v
  | ['r', 'd', '3', '2'], [a] => (parseAddr a).map .rd32
  | ['r', 'd', 'r', 'e', 'c'], [n] => (parseNumber n).map .rdrec
  | _, _ => none

/-- The operands of a statement: nothing, or texts between commas. -/
def parseOperands (cs : List Char) : List (List Char) :=
  if trim cs = [] then [] else (splitAtChar ',' cs).map trim

/-- `[stmt]`: no text is no statement; otherwise the whole text must be one. -/
def parseBody (cs : List Char) : Option (Option Stmt) :=
  let t := trim cs
  if t = [] then some none
  else (parseStmt (t.takeWhile fun c => !isBlank c) (parseOperands (t.dropWhile fun c => !isBlank c))).map some

/-- `line := [label ":"] [stmt] [";" comment]` (R77). -/
def parseLine (cs : List Char) : Option Line :=
  let code := cs.takeWhile (· ≠ ';')
  let comment := if cs.contains ';' then some ((cs.dropWhile (· ≠ ';')).drop 1) else none
  if code.contains ':' then
    (parseBody ((code.dropWhile (· ≠ ':')).drop 1)).map fun s => ⟨some (trim (code.takeWhile (· ≠ ':'))), s, comment⟩
  else (parseBody code).map fun s => ⟨none, s, comment⟩

/-- The lines of a program text; no answer where one does not parse. -/
def parseProgram : List (List Char) → Option (List Line)
  | [] => some []
  | t :: ts => (parseLine t).bind fun l => (parseProgram ts).map fun ls => l :: ls

/-- A hexadecimal digit, upper case as in 30_encoding.md R71's examples. -/
def hexDigit (n : Nat) : Char := if n < 10 then Char.ofNat (48 + n) else Char.ofNat (55 + n)

/-- The 6 hex digits `K A A A D D` of an XACT24 word (R71). -/
def xactText (w : XWord) : List Char := [5, 4, 3, 2, 1, 0].map fun k => hexDigit (w.toNat / 16 ^ k % 16)

/-- The XACT24 word of 6 hex digits (R71). -/
def parseXact (cs : List Char) : Option HostWord :=
  if cs.length = 6 then (digitsValue 16 0 cs).map fun n => .xact24 (BitVec.ofNat 24 n) else none

end Sys2Proof.Machine
end

