-- ==== Sys2Proof/Machine/Session.lean ====
section
/-! DEFINITION. Runs of the block as the host sees them: the record stream S (42_sequencing.md R138), the host's driver
loop (R137), the functional model of a session (R140), and the reading of a stream of records
(41_delta_encoder.md R120). None of this is state of the block. -/

namespace Sys2Proof.Machine

/-- The record now in the buffer, `OUT[0 .. OUT_LEN-1]` (10_state.md R30, R31). -/
def Block.record (b : Block) : Record := b.out.toList.take b.outLen.toNat

/-- The total raw size of the report, `FCOUNT × RAW_FRAME_BYTES`: the host's own product (60_exceptions.md R162). -/
def Block.rawSize (b : Block) : Nat := b.fcount.toNat * Config.rawFrameBytes

/-- The command byte an access writes to CMD, if it writes one (30_encoding.md R70, R73). -/
def commandByte : Instr → Option Byte
  | .pack => some 0x01#8
  | .encode => some 0x02#8
  | .frame => some 0x03#8
  | .srst => some 0x80#8
  | .wr a v => if region a = .cmd then some v else none
  | .rd _ => none

/-- Whether an access asks for a record: ENCODE or FRAME. -/
def asksRecord (i : Instr) : Bool := commandByte i = some 0x02#8 || commandByte i = some 0x03#8

/-- Whether an access starts a session: SRST (R134, R139). -/
def startsSession (i : Instr) : Bool := commandByte i = some 0x80#8

/-- The session's records after an access that took `s` to `t`: SRST starts anew, a successful ENCODE or FRAME appends
the record as it stands right after it, everything else leaves them (R138). -/
def recordsAfter (i : Instr) (s t : Block) (records : List Record) : List Record :=
  if startsSession i then []
  else if asksRecord i && !s.fault && !t.fault then records ++ [t.record]
  else records

/-- A run of the host's accesses, with the records of the session so far (R138). It stops where an access does not
answer a next state, which none does (60_exceptions.md R166). -/
def runSession : List Instr → State → List Record → Option (State × List Record)
  | [], s, records => some (s, records)
  | i :: is, s, records =>
    match exec i s with
    | .next t => runSession is t (recordsAfter i s.block t.block records)
    | .fault _ => none
    | .refused _ => none

/-- One frame as the host presents it: the dimensions its decoder reported and the samples (R140). -/
structure Presented where
  rw : Dim
  rh : Dim
  raster : Raster
  deriving DecidableEq, Repr

/-- The writes of RW and RH, low byte first (R137 step 2, 30_encoding.md R78 dims). -/
def dimWrites (w h : Dim) : List Instr :=
  [.wr 0x180#10 (loByte w), .wr 0x181#10 (hiByte w), .wr 0x182#10 (loByte h), .wr 0x183#10 (hiByte h)]

/-- The writes of the 368 samples (R137 step 2). -/
def rasterWrites (r : Raster) : List Instr :=
  (List.finRange 16).flatMap fun y => (List.finRange 23).map fun x => .wr (rasterAddr y x) r[y][x]

/-- How the host has a frame encoded: R137 step 3 names both ways. -/
inductive EncodeWay where
  /-- "It writes FRAME". -/
  | frame
  /-- "or PACK then ENCODE". -/
  | packEncode
  deriving DecidableEq, Repr

/-- The commands of R137 step 3. -/
def EncodeWay.commands : EncodeWay → List Instr
  | .frame => [.frame]
  | .packEncode => [.pack, .encode]

/-- The writes of one iteration of the host's loop (R137 steps 2 and 3). The order within step 2 is the model's choice
(log entry 14). -/
def presentFrame (way : EncodeWay) (f : Presented) : List Instr :=
  dimWrites f.rw f.rh ++ rasterWrites f.raster ++ way.commands

/-- The accesses of a session of R140, "each presented by one FRAME after SRST", in the order of log entry 14. -/
def hostSession (fs : List Presented) : List Instr := .srst :: fs.flatMap (presentFrame .frame)

/-- A run of the host's accesses alone, as the host's loop issues them. -/
def runAll : List Instr → State → Option State
  | [], s => some s
  | i :: is, s =>
    match exec i s with
    | .next t => runAll is t
    | .fault _ => none
    | .refused _ => none

/-- The byte the port answered last. -/
def State.lastReply (s : State) : Byte := s.replies.getLastD 0x00#8

/-- The reads of `OUT[0 .. n-1]` (R137 step 5). -/
def recordReads (n : Nat) : List Instr := (List.range n).map fun k => .rd (BitVec.ofNat 10 (0x190 + k))

/-- How the host's loop ends (R137, 60_exceptions.md R155). -/
inductive LoopEnd where
  /-- Every frame is encoded. -/
  | finished
  /-- The host's decoder failed on a frame (step 1): the run stops before anything of that frame is written. -/
  | decodeFailed
  /-- STATUS showed FAULT = 1 (step 4). -/
  | faulted
  deriving DecidableEq, Repr

/-- The host's loop over its frames (R137): for each one, what its decoder gave and the way the host has it encoded,
`none` for a DecodeFailure. The sink collects the records as the host READS them from the port. -/
def hostLoop : List (Option (EncodeWay × Presented)) → State → List Record → Option (State × List Record × LoopEnd)
  | [], s, sink => some (s, sink, .finished)
  | none :: _, s, sink => some (s, sink, .decodeFailed)
  | some (way, f) :: fs, s, sink =>
    (runAll (presentFrame way f ++ [.rd 0x185#10]) s).bind fun t =>
      if t.lastReply.getLsbD 0 then some (t, sink, .faulted)
      else
        (runAll [.rd 0x187#10] t).bind fun u =>
          (runAll (recordReads u.lastReply.toNat) u).bind fun v =>
            hostLoop fs v (sink ++ [v.replies.drop u.replies.length])

/-- The host's run: SRST once before frame 1, then the loop (R137). -/
def hostRun (frames : List (Option (EncodeWay × Presented))) (s : State) : Option (State × List Record × LoopEnd) :=
  (runAll [.srst] s).bind fun t => hostLoop frames t []

/-- The mask of the functional model: 0xFF without a previous frame, else the blocks that are not equal (R140). -/
def modelMask (prev : Option PackedFrame) (cur : PackedFrame) : Byte :=
  match prev with
  | none => 0xFF#8
  | some p => maskOf fun i => cur[i] != p[i]

/-- The functional model of a session (R140): the records of the successful frames, and whether a fault ended it. -/
def sessionModel : Option PackedFrame → List Presented → List Record × Bool
  | _, [] => ([], false)
  | prev, f :: fs =>
    if f.rw ≠ 23#16 ∨ f.rh ≠ 16#16 then ([], true)
    else
      let cur := packFrame f.raster
      let rest := sessionModel (some cur) fs
      (recordOf (modelMask prev cur) cur :: rest.1, rest.2)

/-- The block whose bytes are the first five of a list. -/
def blockOfBytes (bytes : List Byte) : PackedBlock := Vector.ofFn fun j => bytes.getD j.val 0x00#8

/-- Take the selected blocks from the payload, five bytes each, in the given block order (R120 fact 3). -/
def overwrite (m : Byte) : List (Fin 8) → List Byte → PackedFrame → PackedFrame
  | [], _, d => d
  | i :: is, bytes, d =>
    if m.getLsbD i.val then overwrite m is (bytes.drop 5) (d.set i (blockOfBytes bytes)) else overwrite m is bytes d

/-- One record applied to a frame: for each set mask bit, the next 5 payload bytes (R120 fact 3). A law of the format
only: no decoder is specified (00_scope.md R5). -/
def applyRecord (d : PackedFrame) : Record → PackedFrame
  | [] => d
  | m :: bytes => overwrite m (List.finRange 8) bytes d

/-- The frames a sequence of records gives, one after each record (R120 fact 3). -/
def reconstruct (d : PackedFrame) : List Record → List PackedFrame
  | [] => []
  | r :: rs => applyRecord d r :: reconstruct (applyRecord d r) rs

/-- Cutting a serialised stream into records: the mask byte tells the length (R120 fact 2). At most `fuel` records. -/
def splitStream : Nat → List Byte → List Record
  | 0, _ => []
  | _ + 1, [] => []
  | fuel + 1, m :: bytes =>
    (m :: bytes.take (5 * popcount m)) :: splitStream fuel (bytes.drop (5 * popcount m))

end Sys2Proof.Machine
end

