-- ==== Sys2Proof/Safety.lean ====
section
/-! DEFINITION. What claims about runs are made in terms of: the invariants of 10_state.md R38, and the duties of the
host (20_memory.md R68, 70_reset_and_hazards.md R173–R177). -/

namespace Sys2Proof.Machine

/-- R38 invariant 1: OUT_LEN = 0, or OUT_LEN = 1 + 5 × popcount(MASK) and OUT[0] = MASK. -/
abbrev Block.lenOk (b : Block) : Prop :=
  b.outLen = 0#8 ∨ (b.outLen.toNat = 1 + 5 * popcount b.mask ∧ b.out[0] = b.mask)

/-- R38 invariant 2: OUT[k] = 0x00 for every k ≥ OUT_LEN. -/
abbrev Block.tailOk (b : Block) : Prop := ∀ k : Fin 41, b.outLen.toNat ≤ k.val → b.out[k] = 0x00#8

/-- R38 invariant 3: PREV_VALID = 0 means that nothing has been counted and no record is held. -/
abbrev Block.freshOk (b : Block) : Prop :=
  b.prevValid = false → b.fcount = 0#32 ∧ b.bcount = 0#32 ∧ b.outLen = 0#8

/-- R38 invariant 5: FAULT = 0 and ERR = 0, or FAULT = 1 and ERR in {1, 2, 3}. -/
abbrev Block.errOk (b : Block) : Prop :=
  (b.fault = false → b.err = 0#3) ∧ (b.fault = true → b.err = 1#3 ∨ b.err = 2#3 ∨ b.err = 3#3)

/-- While PREV holds a frame, the record in OUT is the one PREV's frame gave: MASK selects blocks of PREV (from
41_delta_encoder.md R115 and R116, since PREV then changes only together with OUT). -/
abbrev Block.recordOk (b : Block) : Prop := b.prevValid = true → b.out = bufferOf (recordOf b.mask b.prev)

/-- The block's invariant: R38's 1, 2, 3 and 5, and the record's origin. R38's 4 speaks of the commands run so far and
is stated on its own (log entry 17). -/
structure Block.Inv (b : Block) : Prop where
  len : b.lenOk
  tail : b.tailOk
  fresh : b.freshOk
  errs : b.errOk
  origin : b.recordOk

/-- The machine's invariant is the block's. -/
def State.Inv (s : State) : Prop := s.block.Inv

/-- The host presents a frame the packer accepts (20_memory.md R68, 40_packer.md R90). -/
def Presented.accepted (f : Presented) : Prop := f.rw = 23#16 ∧ f.rh = 16#16

/-- The access presents no PACK: it runs neither PACK nor FRAME (10_state.md R38 invariant 4). -/
def presentsNoPack (i : Instr) : Prop := commandByte i ≠ some 0x01#8 ∧ commandByte i ≠ some 0x03#8

/-- The next event of the state can end a fault: SRST in one of its two spellings, or power-on reset
(60_exceptions.md R158). -/
def State.endsFault (s : State) : Prop :=
  ∃ rest, s.pending = .powerOn :: rest ∨ ∃ w i, s.pending = .access w :: rest ∧ decode w = .ok i ∧ startsSession i = true

/-- The pixel column belongs to a block, `x mod 6 ≠ 5` (40_packer.md R92). -/
abbrev inBlock (x : Fin 23) : Prop := x.val % 6 ≠ 5

/-- Bit `7 - i mod 8` of byte `i / 8` of a packed block: the bit of local index `i` (40_packer.md R94). -/
def localBit (p : PackedBlock) (i : Fin 40) : Bool := (p[i.val / 8]).getLsbD (7 - i.val % 8)

/-- The 40-bit field `F[39:0]` of a packed block, byte 0 most significant (40_packer.md R95). -/
def fieldOf (p : PackedBlock) : BitVec 40 :=
  p[0].setWidth 40 <<< 32 ||| p[1].setWidth 40 <<< 24 ||| p[2].setWidth 40 <<< 16 ||| p[3].setWidth 40 <<< 8 |||
    p[4].setWidth 40

/-- The number of blocks below `i` that a mask selects. -/
def selectedBelow (m : Byte) (i : Fin 8) : Nat := (List.finRange 8).countP fun k => k.val < i.val && m.getLsbD k.val

/-- A command byte of the opcode map (30_encoding.md R73). -/
abbrev isCommand (v : Byte) : Prop := v = 0x01#8 ∨ v = 0x02#8 ∨ v = 0x03#8 ∨ v = 0x80#8

/-- An address the host can write data to: RASTER, RW or RH (20_memory.md R51). -/
abbrev isStorage (a : Addr) : Prop := a.toNat ≤ 0x16F ∨ (0x180 ≤ a.toNat ∧ a.toNat ≤ 0x183)

/-- An address of 20_memory.md R51 from STATUS to the end of OUT: what ENCODE, FRAME and SRST can change besides CUR
and PREV. -/
abbrev isReport (a : Addr) : Prop := 0x185 ≤ a.toNat ∧ a.toNat ≤ 0x1B8

/-- An address of the CUR window (20_memory.md R53). -/
abbrev isCur (a : Addr) : Prop := 0x1C0 ≤ a.toNat ∧ a.toNat ≤ 0x1E7

/-- An address of the PREV window (20_memory.md R53). -/
abbrev isPrev (a : Addr) : Prop := 0x200 ≤ a.toNat ∧ a.toNat ≤ 0x227

/-- An XACT24 word that matches neither row of 30_encoding.md R74. -/
abbrev spellsNoAccess (w : XWord) : Prop := w &&& 0xFC0000#24 ≠ 0x100000#24 ∧ w &&& 0xFC00FF#24 ≠ 0x000000#24

/-- The frame of the raster at hand is one the packer accepts, and no fault is pending (40_packer.md R90). -/
abbrev Block.ready (b : Block) : Prop := b.fault = false ∧ b.rw = 23#16 ∧ b.rh = 16#16

end Sys2Proof.Machine
end

