-- ==== Sys2Proof/Certificates/Slice0/Obligations.lean ====
section
/-! DEFINITION. The statements for the provers, from the numbered rules of spec/. -/

open Sys2Proof Sys2Proof.Machine

/-! ### Encoding -/

/-- Words written out from 30_encoding.md R70, R71, R73 and R74, field by field (sanity). -/
def Obligations.OpcodeWordsDecode : Prop :=
  decode (.cmd8 0b00000001#8) = .ok .pack ∧
  decode (.cmd8 0b00000010#8) = .ok .encode ∧
  decode (.cmd8 0b00000011#8) = .ok .frame ∧
  decode (.cmd8 0b10000000#8) = .ok .srst ∧
  decode (.xact24 0b000100011000010000000011#24) = .ok (.wr 0x184#10 0x03#8) ∧
  decode (.xact24 0b000000011000010100000000#24) = .ok (.rd 0x185#10)

/-- 30_encoding.md R73: the CMD8 opcode map is exactly its four bytes. -/
def Obligations.Cmd8MapIsItsFourBytes : Prop :=
  ∀ op : Byte,
    (op = 0x01#8 → decode (.cmd8 op) = .ok .pack) ∧
    (op = 0x02#8 → decode (.cmd8 op) = .ok .encode) ∧
    (op = 0x03#8 → decode (.cmd8 op) = .ok .frame) ∧
    (op = 0x80#8 → decode (.cmd8 op) = .ok .srst) ∧
    (¬ isCommand op → decode (.cmd8 op) = .rejected (.illegalCommand op))

/-- 30_encoding.md R71 and R74: the XACT24 map, by match and mask, and every other word refused by a name of its own.
That a read word whose DATA is not 0x00 is among the refused ones is the model's inference from R71 and the mask (log
entry 8, DEDUCED). -/
def Obligations.Xact24MapIsItsTwoRows : Prop :=
  ∀ w : XWord,
    (∀ a d, decode (.xact24 w) = .ok (.wr a d) ↔
      w &&& 0xFC0000#24 = 0x100000#24 ∧ a = w.extractLsb' 8 10 ∧ d = w.extractLsb' 0 8) ∧
    (∀ a, decode (.xact24 w) = .ok (.rd a) ↔ w &&& 0xFC00FF#24 = 0x000000#24 ∧ a = w.extractLsb' 8 10) ∧
    (spellsNoAccess w →
      decode (.xact24 w) = .rejected (.reservedBits w) ∨ decode (.xact24 w) = .rejected (.unknownKind w) ∨
      decode (.xact24 w) = .rejected (.readWithData w))

/-- Decoding and encoding agree in both directions, on every instruction with every operand (30_encoding.md R73, R74).
-/
def Obligations.DecodeAndEncodeAgree : Prop :=
  (∀ i : Instr, decode (encode i) = .ok i) ∧ (∀ (w : HostWord) (i : Instr), decode w = .ok i → encode i = w)

/-- A table word placed where the next instruction is fetched is decoded and run by the very next step, from every
state (30_encoding.md R73, R74; log entry 4). -/
def Obligations.FetchedTableWordRuns : Prop :=
  ∀ (i : Instr) (s : State),
    decodeTableWord (encode i).bits (encode i).value = some i ∧
    step (s.withFetchWord (encode i).bits (encode i).value) = exec i s

/-! ### Steps -/

/-- A step runs the decoded instruction: the host's oldest pending access leaves the list, and the rest is `exec`
(20_memory.md R55, R63; the list is log entry 4). -/
def Obligations.StepRunsDecodedInstruction : Prop :=
  ∀ (s : State) (w : HostWord) (rest : List HostEvent) (i : Instr),
    s.pending = .access w :: rest → decode w = .ok i → step s = exec i { s with pending := rest }

/-- With nothing pending the block is idle and holds all its state (60_exceptions.md R165; that this is a step is log
entry 6). -/
def Obligations.IdleStepHoldsState : Prop := ∀ s : State, s.pending = [] → step s = .next s

/-- 70_reset_and_hazards.md R170: the power-on values, in the reset state and after a power-on event in any state.
RASTER, CUR and PREV are unspecified: nothing is said of them. -/
def Obligations.PowerOnValues : Prop :=
  (∀ s rest, s.pending = HostEvent.powerOn :: rest →
    ∃ b n, step s = .next { s with block := b, pending := rest, powerOns := n } ∧
      b.rw = 0#16 ∧ b.rh = 0#16 ∧ b.curValid = false ∧ b.prevValid = false ∧ b.mask = 0x00#8 ∧
      (∀ k : Fin 41, b.out[k] = 0x00#8) ∧ b.outLen = 0x00#8 ∧ b.fcount = 0#32 ∧ b.bcount = 0#32 ∧
      b.fault = false ∧ b.err = 0#3 ∧ b.read 0x185#10 = 0x00#8) ∧
  State.reset.block.rw = 0#16 ∧ State.reset.block.rh = 0#16 ∧
  State.reset.block.curValid = false ∧ State.reset.block.prevValid = false ∧ State.reset.block.mask = 0x00#8 ∧
  (∀ k : Fin 41, State.reset.block.out[k] = 0x00#8) ∧ State.reset.block.outLen = 0x00#8 ∧
  State.reset.block.fcount = 0#32 ∧ State.reset.block.bcount = 0#32 ∧
  State.reset.block.fault = false ∧ State.reset.block.err = 0#3 ∧ State.reset.block.read 0x185#10 = 0x00#8

/-- 60_exceptions.md R166: every access ends in a next state; no state makes an instruction stop. -/
def Obligations.EveryAccessCompletes : Prop := ∀ (i : Instr) (s : State), ∃ t, exec i s = .next t

/-- The machine stops exactly on an XACT24 word that spells no access, refusing it by name, and never with a fault
(30_encoding.md R74, 60_exceptions.md R166). Two parts are the model's: a read word whose DATA is not 0x00 spells no
access (log entry 8, DEDUCED), and a step with nothing pending is a next state (log entry 6, DESIGN CHOICE). -/
def Obligations.StepStopsExactlyOnNoAccess : Prop :=
  ∀ s : State,
    ((∃ why, step s = .refused (.noAccess why)) ↔
      ∃ w rest, s.pending = .access (.xact24 w) :: rest ∧ spellsNoAccess w) ∧
    ((∃ t, step s = .next t) ∨ ∃ why, step s = .refused (.noAccess why))

/-- A CMD8 word is a write of its byte to CMD: the two spellings of every command byte, legal or not, run alike
(30_encoding.md R70). -/
def Obligations.Cmd8WordIsWriteToCmd : Prop :=
  ∀ (s : State) (v : Byte), step (s.withNextWord (.cmd8 v)) = exec (.wr 0x184#10 v) s

/-! ### The host port -/

/-- 20_memory.md R56: what a read of every address answers; it changes nothing but the host's own list of replies, and
the answer depends on the block alone. -/
def Obligations.ReadAnswersTheMap : Prop :=
  ∀ (s : State) (a : Addr), ∃ v : Byte,
    (∀ r, exec (.rd a) { s with replies := r } = .next { s with replies := r ++ [v] }) ∧
    (∀ (y : Fin 16) (x : Fin 23), a.toNat = y.val * 23 + x.val → v = s.block.raster[y][x]) ∧
    (a = 0x180#10 → v = s.block.rw.extractLsb' 0 8) ∧
    (a = 0x181#10 → v = s.block.rw.extractLsb' 8 8) ∧
    (a = 0x182#10 → v = s.block.rh.extractLsb' 0 8) ∧
    (a = 0x183#10 → v = s.block.rh.extractLsb' 8 8) ∧
    (a = 0x184#10 → v = 0x00#8) ∧
    (a = 0x185#10 → v.toNat = s.block.fault.toNat + 2 * s.block.err.toNat + 16 * s.block.prevValid.toNat +
      32 * s.block.curValid.toNat) ∧
    (a = 0x186#10 → v = s.block.mask) ∧
    (a = 0x187#10 → v = s.block.outLen) ∧
    (∀ k : Fin 4, a.toNat = 0x188 + k.val → v = s.block.fcount.extractLsb' (8 * k.val) 8) ∧
    (∀ k : Fin 4, a.toNat = 0x18C + k.val → v = s.block.bcount.extractLsb' (8 * k.val) 8) ∧
    (∀ k : Fin 41, a.toNat = 0x190 + k.val → v = s.block.out[k]) ∧
    (∀ (i : Fin 8) (j : Fin 5), a.toNat = 0x1C0 + 5 * i.val + j.val → v = s.block.cur[i][j]) ∧
    (∀ (i : Fin 8) (j : Fin 5), a.toNat = 0x200 + 5 * i.val + j.val → v = s.block.prev[i][j]) ∧
    ((0x170 ≤ a.toNat ∧ a.toNat ≤ 0x17F) ∨ (0x1B9 ≤ a.toNat ∧ a.toNat ≤ 0x1BF) ∨
      (0x1E8 ≤ a.toNat ∧ a.toNat ≤ 0x1FF) ∨ 0x228 ≤ a.toNat → v = 0x00#8)

/-- 10_state.md R34: the fields of the STATUS byte, bit by bit, and that a write to it is ignored. -/
def Obligations.StatusFields : Prop :=
  (∀ (s : State) (v : Byte), exec (.wr 0x185#10 v) s = .next s) ∧
  State.reset.block.read 0x185#10 = 0x00#8 ∧
  ∀ b : Block,
    (b.read 0x185#10).getLsbD 0 = b.fault ∧
    (∀ k : Fin 3, (b.read 0x185#10).getLsbD (1 + k.val) = b.err.getLsbD k.val) ∧
    (b.read 0x185#10).getLsbD 4 = b.prevValid ∧
    (b.read 0x185#10).getLsbD 5 = b.curValid ∧
    (b.read 0x185#10).getLsbD 6 = false ∧ (b.read 0x185#10).getLsbD 7 = false

/-- 20_memory.md R57: what a write to every address does, in every state. -/
def Obligations.WriteFollowsTheMap : Prop :=
  ∀ (s : State) (a : Addr) (v : Byte), ∃ b : Block,
    exec (.wr a v) s = .next { s with block := b } ∧
    (∀ (y : Fin 16) (x : Fin 23), a.toNat = y.val * 23 + x.val →
      b = { s.block with raster := b.raster } ∧
      ∀ (y' : Fin 16) (x' : Fin 23), b.raster[y'][x'] = if y' = y ∧ x' = x then v else s.block.raster[y'][x']) ∧
    (a = 0x180#10 → b = { s.block with rw := b.rw } ∧
      b.rw.extractLsb' 0 8 = v ∧ b.rw.extractLsb' 8 8 = s.block.rw.extractLsb' 8 8) ∧
    (a = 0x181#10 → b = { s.block with rw := b.rw } ∧
      b.rw.extractLsb' 8 8 = v ∧ b.rw.extractLsb' 0 8 = s.block.rw.extractLsb' 0 8) ∧
    (a = 0x182#10 → b = { s.block with rh := b.rh } ∧
      b.rh.extractLsb' 0 8 = v ∧ b.rh.extractLsb' 8 8 = s.block.rh.extractLsb' 8 8) ∧
    (a = 0x183#10 → b = { s.block with rh := b.rh } ∧
      b.rh.extractLsb' 8 8 = v ∧ b.rh.extractLsb' 0 8 = s.block.rh.extractLsb' 0 8) ∧
    (a = 0x184#10 → b = s.block.command v) ∧
    ((0x170 ≤ a.toNat ∧ a.toNat ≤ 0x17F) ∨ 0x185 ≤ a.toNat → b = s.block)

/-- 20_memory.md R63: a byte written to RASTER, RW or RH is read back, every other address reads as before, and a
write to any other address but CMD leaves every address reading as before. -/
def Obligations.ReadAfterWrite : Prop :=
  ∀ (s : State) (a : Addr) (v : Byte), a ≠ 0x184#10 →
    ∃ t, exec (.wr a v) s = .next t ∧
      (isStorage a → t.block.read a = v) ∧
      ∀ a', (a' ≠ a ∨ ¬ isStorage a) → t.block.read a' = s.block.read a'

/-- 42_sequencing.md R130: what a write to CMD runs, by FAULT and the written byte and nothing else. -/
def Obligations.CmdWriteDispatches : Prop :=
  ∀ (s : State) (v : Byte),
    (s.block.fault = true → v = 0x80#8 → exec (.wr 0x184#10 v) s = exec .srst s) ∧
    (s.block.fault = true → v ≠ 0x80#8 → exec (.wr 0x184#10 v) s = .next s) ∧
    (s.block.fault = false → v = 0x01#8 → exec (.wr 0x184#10 v) s = exec .pack s) ∧
    (s.block.fault = false → v = 0x02#8 → exec (.wr 0x184#10 v) s = exec .encode s) ∧
    (s.block.fault = false → v = 0x03#8 → exec (.wr 0x184#10 v) s = exec .frame s) ∧
    (s.block.fault = false → v = 0x80#8 → exec (.wr 0x184#10 v) s = exec .srst s) ∧
    (s.block.fault = false → ¬ isCommand v →
      exec (.wr 0x184#10 v) s = .next { s with block := { s.block with fault := true, err := 3#3 } })

/-! ### The packer -/

/-- 40_packer.md R91, R93, R94, R96: PACK on an accepted raster gives CUR its 40 bits per block, sets CUR_VALID, and
changes nothing else. -/
def Obligations.PackSetsEveryLocalBit : Prop :=
  ∀ s : State, s.block.ready →
    ∃ cur, exec .pack s = .next { s with block := { s.block with cur := cur, curValid := true } } ∧
      ∀ (b dy : Fin 8) (dx : Fin 5) (y : Fin 16) (x : Fin 23) (i : Fin 40),
        x.val = 6 * (b.val % 4) + dx.val → y.val = 8 * (b.val / 4) + dy.val → i.val = dy.val * 5 + dx.val →
        (localBit cur[b] i = true ↔ s.block.raster[y][x] = 0x00#8)

/-- 60_exceptions.md R152: PACK and FRAME on any other geometry raise GEOMETRY_MISMATCH, clear CUR_VALID, and change
nothing else. -/
def Obligations.GeometryMismatchIsPrecise : Prop :=
  ∀ s : State, s.block.fault = false → (s.block.rw ≠ 23#16 ∨ s.block.rh ≠ 16#16) →
    exec .pack s = .next { s with block := { s.block with curValid := false, fault := true, err := 1#3 } } ∧
    exec .frame s = .next { s with block := { s.block with curValid := false, fault := true, err := 1#3 } }

/-- 40_packer.md R99 (derived there from R91 and R94): switching one in-block pixel on sets one bit of one byte of one
block, and no other. -/
def Obligations.OnePixelSetsOneBit : Prop :=
  ∀ (r : Raster) (y : Fin 16) (x : Fin 23) (b : Fin 8) (i : Fin 40), inBlock x →
    b.val = y.val / 8 * 4 + x.val / 6 → i.val = y.val % 8 * 5 + x.val % 6 → r[y][x] ≠ 0x00#8 →
    ∀ (b' : Fin 8) (j : Fin 5),
      (packFrame (withSample r y x 0x00#8))[b'][j] =
        (packFrame r)[b'][j] ||| (if b' = b ∧ j.val = i.val / 8 then 0x80#8 >>> (i.val % 8) else 0x00#8)

/-- 40_packer.md R92, R93 and R97: the frame PACK makes depends on which in-block samples are 0, and on nothing else: not
on gap pixels (R92, the spec's own inference from R91), not on CUR, PREV, the counters or the earlier commands. -/
def Obligations.PackSeesOnlyInBlockZeros : Prop :=
  ∀ s s' : State, s.block.ready → s'.block.ready →
    (∀ (y : Fin 16) (x : Fin 23), inBlock x → (s.block.raster[y][x] = 0x00#8 ↔ s'.block.raster[y][x] = 0x00#8)) →
    ∃ t t', exec .pack s = .next t ∧ exec .pack s' = .next t' ∧ t.block.cur = t'.block.cur

/-- 40_packer.md R92: the blocks do not overlap, and they cover exactly the pixels with `x mod 6 ≠ 5`. -/
def Obligations.BlocksPartitionThePixels : Prop :=
  ∀ (y : Fin 16) (x : Fin 23) (b : Fin 8),
    (∃ (dy : Fin 8) (dx : Fin 5), pixelY b dy = y ∧ pixelX b dx = x) ↔
      inBlock x ∧ b.val = y.val / 8 * 4 + x.val / 6

/-- 40_packer.md R95 (in part derived there from R94): the block's 40-bit field after PACK is its eight 5-bit rows,
row 0 most significant, the leftmost pixel of a row most significant; its bytes are the field's, and local index `i`
is bit `39 - i`. -/
def Obligations.PackedFieldIsItsRows : Prop :=
  ∀ s : State, s.block.ready →
    ∃ t, exec .pack s = .next t ∧
      ∀ b r : Fin 8, ((fieldOf t.block.cur[b]).extractLsb' (35 - 5 * r.val) 5).toNat =
        16 * (pixelOn s.block.raster (pixelY b r) (pixelX b 0)).toNat +
        8 * (pixelOn s.block.raster (pixelY b r) (pixelX b 1)).toNat +
        4 * (pixelOn s.block.raster (pixelY b r) (pixelX b 2)).toNat +
        2 * (pixelOn s.block.raster (pixelY b r) (pixelX b 3)).toNat +
        (pixelOn s.block.raster (pixelY b r) (pixelX b 4)).toNat ∧
        (∀ j : Fin 5, t.block.cur[b][j] = (fieldOf t.block.cur[b]).extractLsb' (32 - 8 * j.val) 8) ∧
        ∀ i : Fin 40, (fieldOf t.block.cur[b]).getLsbD (39 - i.val) = localBit t.block.cur[b] i

/-- 40_packer.md R100 (derived there from R92 and R94): the 1 bits of a packed block, and of all of CUR, count the
zero samples they were made from. -/
def Obligations.OnesCountZeroSamples : Prop :=
  ∀ r : Raster,
    (∀ b : Fin 8, ((packBlock r b).toList.map popcount).sum =
      ((List.finRange 8).flatMap fun dy => (List.finRange 5).map fun dx => (dy, dx)).countP
        fun p => r[pixelY b p.1][pixelX b p.2] = 0x00#8) ∧
    ((packFrame r).toList.map fun p => (p.toList.map popcount).sum).sum =
      ((List.finRange 16).flatMap fun y => (List.finRange 23).map fun x => (y, x)).countP
        fun p => inBlock p.2 ∧ r[p.1][p.2] = 0x00#8

/-! ### The delta encoder -/

/-- 41_delta_encoder.md R113 (with R111 and R112): the mask ENCODE makes, bit by bit; forced to 0xFF on the first
frame whatever CUR and PREV hold. -/
def Obligations.EncodeMakesTheChangeMask : Prop :=
  ∀ s : State, s.block.fault = false → s.block.curValid = true →
    ∃ t, exec .encode s = .next t ∧
      (∀ i : Fin 8, t.block.mask.getLsbD i.val = true ↔ s.block.prevValid = false ∨ s.block.cur[i] ≠ s.block.prev[i]) ∧
      (s.block.prevValid = false → t.block.mask = 0xFF#8 ∧ t.block.outLen = 41#8) ∧
      (s.block.prevValid = false → ∀ p, exec .encode { s with block := { s.block with prev := p } } = .next t)

/-- 41_delta_encoder.md R115, with the offsets R114 derives from it: the record ENCODE leaves in OUT and OUT_LEN: the
mask, each selected block's five bytes at its offset, and 0x00 behind the record. -/
def Obligations.EncodeEmitsTheRecord : Prop :=
  ∀ s : State, s.block.fault = false → s.block.curValid = true →
    ∃ t, exec .encode s = .next t ∧
      t.block.outLen.toNat = 1 + 5 * popcount t.block.mask ∧
      t.block.out[0] = t.block.mask ∧
      (∀ i : Fin 8, t.block.mask.getLsbD i.val = true →
        recordOffset t.block.mask i = 1 + 5 * selectedBelow t.block.mask i ∧
        recordOffset t.block.mask i + 5 ≤ t.block.outLen.toNat ∧
        ∀ (j : Fin 5) (k : Fin 41), k.val = recordOffset t.block.mask i + j.val → t.block.out[k] = s.block.cur[i][j]) ∧
      (∀ k : Fin 41, t.block.outLen.toNat ≤ k.val → t.block.out[k] = 0x00#8) ∧
      t.block.record = recordOf t.block.mask s.block.cur

/-- 41_delta_encoder.md R116, R117: ENCODE makes CUR the previous frame, consumes it, and counts; beside MASK, OUT and
OUT_LEN it changes nothing else. -/
def Obligations.EncodeUpdatesPreviousAndCounts : Prop :=
  ∀ s : State, s.block.fault = false → s.block.curValid = true →
    ∃ m o n f c, exec .encode s = .next { s with block :=
        { s.block with mask := m, out := o, outLen := n, prev := s.block.cur, prevValid := true, curValid := false,
                       fcount := f, bcount := c } } ∧
      n.toNat = 1 + 5 * popcount m ∧
      f.toNat = (s.block.fcount.toNat + 1) % 2 ^ 32 ∧ c.toNat = (s.block.bcount.toNat + n.toNat) % 2 ^ 32

/-- 60_exceptions.md R153: ENCODE without a fresh CUR raises SEQUENCE and changes nothing but FAULT and ERR. -/
def Obligations.EncodeWithoutFreshFrameFaults : Prop :=
  ∀ s : State, s.block.fault = false → s.block.curValid = false →
    exec .encode s = .next { s with block := { s.block with fault := true, err := 2#3 } }

/-- 10_state.md R39: no rule reads PREV while PREV_VALID = 0, but the host's own read of its window. Two states that
differ in PREV alone then run every other access alike; afterwards they still differ in PREV alone, or not at all. -/
def Obligations.UnspecifiedPrevNeverLeaks : Prop :=
  ∀ (i : Instr) (s : State) (p : PackedFrame), s.block.prevValid = false → (∀ a, i = .rd a → ¬ isPrev a) →
    ∃ t, exec i s = .next t ∧
      (exec i { s with block := { s.block with prev := p } } = .next { t with block := { t.block with prev := p } } ∧
          t.block.prevValid = false ∨
        exec i { s with block := { s.block with prev := p } } = .next t ∧ t.block.prevValid = true)

/-- 93_implementation_defined.md U4: while CUR_VALID = 0 the bytes of CUR reach nothing but the host's own read of
their window. -/
def Obligations.UnspecifiedCurNeverLeaks : Prop :=
  ∀ (i : Instr) (s : State) (c : PackedFrame), s.block.curValid = false → (∀ a, i = .rd a → ¬ isCur a) →
    ∃ t, exec i s = .next t ∧
      (exec i { s with block := { s.block with cur := c } } = .next { t with block := { t.block with cur := c } } ∧
          t.block.curValid = false ∨
        exec i { s with block := { s.block with cur := c } } = .next t)

/-! ### FRAME, SRST, faults -/

/-- 42_sequencing.md R132: FRAME is PACK and then ENCODE whenever PACK succeeds, and PACK alone otherwise. -/
def Obligations.FrameIsPackThenEncode : Prop :=
  ∀ s : State,
    (s.block.ready → ∃ p t, exec .pack s = .next p ∧ exec .encode p = .next t ∧ exec .frame s = .next t ∧
      t.block.fault = false ∧ t.block.curValid = false ∧ t.block.prevValid = true) ∧
    (s.block.fault = false → s.block.rw ≠ 23#16 ∨ s.block.rh ≠ 16#16 → exec .frame s = exec .pack s)

/-- 42_sequencing.md R134: what SRST writes and what it leaves, in every state, FAULT = 1 included; twice is once. -/
def Obligations.SrstStartsSession : Prop :=
  ∀ s : State, ∃ t, exec .srst s = .next t ∧ exec .srst t = .next t ∧
    t = { s with block := { s.block with
      curValid := false, prevValid := false, mask := 0x00#8, out := t.block.out, outLen := 0x00#8,
      fcount := 0#32, bcount := 0#32, fault := false, err := 0#3 } } ∧
    ∀ k : Fin 41, t.block.out[k] = 0x00#8

/-- 42_sequencing.md R135, 60_exceptions.md R154: an undefined command byte raises ILLEGAL_COMMAND while FAULT = 0, is
ignored while FAULT = 1, and changes nothing but FAULT and ERR. The last clause, that an undefined byte standing as a
CMD8 word in the host's list does the same, is the model's (log entry 7, DEDUCED; the list is log entry 4, DESIGN
CHOICE). -/
def Obligations.IllegalByteFaults : Prop :=
  ∀ (s : State) (v : Byte), ¬ isCommand v →
    (s.block.fault = false →
      exec (.wr 0x184#10 v) s = .next { s with block := { s.block with fault := true, err := 3#3 } } ∧
      (s.block.read 0x185#10 = 0x00#8 →
        ({ s.block with fault := true, err := 3#3 } : Block).read 0x185#10 = 0x07#8)) ∧
    (s.block.fault = true → exec (.wr 0x184#10 v) s = .next s) ∧
    ∀ rest, s.pending = .access (.cmd8 v) :: rest →
      (s.block.fault = false →
        step s = .next { s with block := { s.block with fault := true, err := 3#3 }, pending := rest }) ∧
      (s.block.fault = true → step s = .next { s with pending := rest })

/-- 60_exceptions.md R157: while FAULT = 1 no command but SRST changes anything; host reads and writes of RASTER, RW
and RH work and leave FAULT and ERR. -/
def Obligations.FaultIsSticky : Prop :=
  ∀ s : State, s.block.fault = true →
    exec .pack s = .next s ∧ exec .encode s = .next s ∧ exec .frame s = .next s ∧
    (∀ v, v ≠ 0x80#8 → exec (.wr 0x184#10 v) s = .next s) ∧
    (∀ a, exec (.rd a) s = .next { s with replies := s.replies ++ [s.block.read a] }) ∧
    (∀ a v, a ≠ 0x184#10 → ∃ t, exec (.wr a v) s = .next t ∧ (isStorage a → t.block.read a = v) ∧
      t.block.fault = true ∧ t.block.err = s.block.err)

/-- 60_exceptions.md R158: SRST and power-on reset, and nothing else, lead out of a fault; both start a new session.
-/
def Obligations.OnlySrstOrPowerOnEndsFault : Prop :=
  (∀ s t : State, step s = .next t → s.block.fault = true → ¬ s.endsFault →
    t.block.fault = true ∧ t.block.err = s.block.err) ∧
  (∀ s : State, s.endsFault → ∃ t, step s = .next t ∧ t.block.fault = false ∧ t.block.err = 0#3 ∧
    t.block.prevValid = false ∧ t.block.fcount = 0#32 ∧ t.block.bcount = 0#32)

/-- 60_exceptions.md R156 (derived there from R130): which fault a write to CMD raises, by the fixed order of the
checks: none while FAULT = 1. -/
def Obligations.FaultPriority : Prop :=
  ∀ (s : State) (v : Byte),
    (s.block.fault = true → v ≠ 0x80#8 → exec (.wr 0x184#10 v) s = .next s) ∧
    (s.block.fault = false →
      ∃ t, exec (.wr 0x184#10 v) s = .next t ∧
        if ¬ isCommand v then t.block.fault = true ∧ t.block.err = 3#3
        else if (v = 0x01#8 ∨ v = 0x03#8) ∧ (s.block.rw ≠ 23#16 ∨ s.block.rh ≠ 16#16) then
          t.block.fault = true ∧ t.block.err = 1#3
        else if v = 0x02#8 ∧ s.block.curValid = false then t.block.fault = true ∧ t.block.err = 2#3
        else t.block.fault = false)

/-! ### Whole-machine rules and frames -/

/-- 10_state.md R40 and the "written by" column of R20: which accesses can change which element. -/
def Obligations.WhoWritesWhat : Prop :=
  ∀ (i : Instr) (s : State), ∃ t, exec i s = .next t ∧ t.pending = s.pending ∧ t.powerOns = s.powerOns ∧
    ((∀ a v, i = .wr a v → ¬ isStorage a) →
      t.block.raster = s.block.raster ∧ t.block.rw = s.block.rw ∧ t.block.rh = s.block.rh) ∧
    (commandByte i ≠ some 0x01#8 → commandByte i ≠ some 0x03#8 → t.block.cur = s.block.cur) ∧
    (commandByte i ≠ some 0x02#8 → commandByte i ≠ some 0x03#8 → t.block.prev = s.block.prev) ∧
    (asksRecord i = false → startsSession i = false →
      t.block.prevValid = s.block.prevValid ∧ t.block.mask = s.block.mask ∧ t.block.out = s.block.out ∧
      t.block.outLen = s.block.outLen ∧ t.block.fcount = s.block.fcount ∧ t.block.bcount = s.block.bcount) ∧
    (commandByte i = none →
      t.block.curValid = s.block.curValid ∧ t.block.fault = s.block.fault ∧ t.block.err = s.block.err) ∧
    ((∀ a, i ≠ .rd a) → t.replies = s.replies)

/-- What the four commands leave readable on the host port, in every state: PACK all but CUR and STATUS, ENCODE all
but STATUS..OUT and PREV, FRAME all but STATUS..OUT, CUR and PREV, SRST all but STATUS..OUT (10_state.md R40,
20_memory.md R51). -/
def Obligations.CommandsLeaveOtherAddresses : Prop :=
  ∀ s : State,
    (∃ t, exec .pack s = .next t ∧ ∀ a, a ≠ 0x185#10 → ¬ isCur a → t.block.read a = s.block.read a) ∧
    (∃ t, exec .encode s = .next t ∧ ∀ a, ¬ isReport a → ¬ isPrev a → t.block.read a = s.block.read a) ∧
    (∃ t, exec .frame s = .next t ∧ ∀ a, ¬ isReport a → ¬ isCur a → ¬ isPrev a → t.block.read a = s.block.read a) ∧
    (∃ t, exec .srst s = .next t ∧ ∀ a, ¬ isReport a → t.block.read a = s.block.read a)

/-- 60_exceptions.md R162 (10_state.md R32, R33): every step of every state leaves both counters, or clears both (a
new session), or advances FCOUNT by 1 and BCOUNT by the new record's length (a successful ENCODE or FRAME). -/
def Obligations.CountersMoveTogether : Prop :=
  ∀ s t : State, step s = .next t →
    (t.block.fcount = s.block.fcount ∧ t.block.bcount = s.block.bcount) ∨
    (t.block.fcount = 0#32 ∧ t.block.bcount = 0#32 ∧ t.block.prevValid = false ∧ s.endsFault) ∨
    (t.block.fcount.toNat = (s.block.fcount.toNat + 1) % 2 ^ 32 ∧
      t.block.bcount.toNat = (s.block.bcount.toNat + t.block.outLen.toNat) % 2 ^ 32 ∧
      s.block.fault = false ∧ t.block.fault = false ∧
      ∃ w i rest, s.pending = .access w :: rest ∧ decode w = .ok i ∧ asksRecord i = true)

/-- 10_state.md R38 invariant 4 (read as log entry 17 says): a successful ENCODE or FRAME leaves CUR = PREV, and every
access that presents no PACK keeps CUR = PREV. -/
def Obligations.CurEqualsPrevUntilNextPack : Prop :=
  (∀ s : State, s.block.fault = false → s.block.curValid = true →
    ∃ t, exec .encode s = .next t ∧ t.block.cur = t.block.prev) ∧
  (∀ s : State, s.block.ready → ∃ t, exec .frame s = .next t ∧ t.block.cur = t.block.prev) ∧
  (∀ (i : Instr) (s : State), presentsNoPack i → s.block.cur = s.block.prev →
    ∃ t, exec i s = .next t ∧ t.block.cur = t.block.prev)

/-- The reset state meets the invariant (10_state.md R38, R39). -/
def Obligations.ResetMeetsInvariant : Prop := State.reset.Inv

/-- 10_state.md R38 (derived there from the commands' rules): every step keeps the invariant, from every state that
meets it. -/
def Obligations.StepKeepsInvariant : Prop := ∀ s t : State, s.Inv → step s = .next t → t.Inv

/-! ### Frames and sessions -/

/-- Two FRAMEs over the same raster: the second record is the mask 0x00 alone (95_test_vectors.md S3, R112, R113). -/
def Obligations.RepeatedFrameIsOneByte : Prop :=
  ∀ s : State, s.block.ready →
    ∃ t u, exec .frame s = .next t ∧ exec .frame t = .next u ∧
      u.block.mask = 0x00#8 ∧ u.block.record = [0x00#8] ∧
      u.block.bcount = t.block.bcount + 1#32 ∧ u.block.cur = t.block.cur

/-- Two FRAMEs between which the host changes one in-block pixel from off to on or from on to off: the second mask has
exactly that block's bit, and the payload is that block's five bytes (95_test_vectors.md S4). -/
def Obligations.OneChangedPixelSelectsItsBlock : Prop :=
  ∀ (s : State) (y : Fin 16) (x : Fin 23) (v : Byte) (k : Fin 8), s.block.ready → inBlock x →
    k.val = y.val / 8 * 4 + x.val / 6 → ¬ (s.block.raster[y][x] = 0x00#8 ↔ v = 0x00#8) →
    ∃ t u w, exec .frame s = .next t ∧ exec (.wr (BitVec.ofNat 10 (y.val * 23 + x.val)) v) t = .next u ∧
      exec .frame u = .next w ∧ w.block.mask = 1#8 <<< k.val ∧
      w.block.record = (1#8 <<< k.val) :: w.block.cur[k].toList ∧ w.block.cur[k] = packBlock u.block.raster k

/-- 42_sequencing.md R140 (derived there from R130, R132 and R134): for every list of frames, from every state, the
host's session (SRST, then for each frame the 372 writes and FRAME) gives exactly the records of the functional model,
and ends faulted exactly where it does. The order of the writes within a frame, and that the frames behind a fault are
still issued, are the model's choice of what the session is (log entry 14, DESIGN CHOICE). -/
def Obligations.SessionIsTheFunctionalModel : Prop :=
  ∀ (s : State) (fs : List Presented),
    ∃ t, runSession (hostSession fs) s [] = some (t, (sessionModel none fs).1) ∧
      t.block.fault = (sessionModel none fs).2 ∧
      (t.block.fault = true → t.block.err = 1#3)

/-- 42_sequencing.md R137 and 60_exceptions.md R155 against R140: what the host's loop READS from the port and hands to
its sink is exactly the records of the functional model, each frame encoded by FRAME or by PACK then ENCODE. The loop
ends by the fault where the model does; a DecodeFailure behind the frames ends it in the very same state, whatever frames
would follow. The order of the host's writes within a frame is the model's choice (log entry 14). -/
def Obligations.HostLoopDeliversTheModel : Prop :=
  ∀ (s : State) (fs : List (EncodeWay × Presented)), ∃ t,
    hostRun (fs.map some) s =
      some (t, (sessionModel none (fs.map Prod.snd)).1,
        if (sessionModel none (fs.map Prod.snd)).2 then .faulted else .finished) ∧
    ∀ rest : List (Option (EncodeWay × Presented)),
      hostRun (fs.map some ++ none :: rest) s =
        some (t, (sessionModel none (fs.map Prod.snd)).1,
          if (sessionModel none (fs.map Prod.snd)).2 then .faulted else .decodeFailed)

/-- 41_delta_encoder.md R120 (derived there from R113, R115 and R116): the record stream of a session of accepted
frames: every record's length follows from its mask byte and is one of nine, the serialised stream splits into its
records, and reconstructing from an all-zero frame gives every packed frame in order. The order of the writes within a
frame is the model's choice (log entry 14, DESIGN CHOICE). -/
def Obligations.StreamRoundTrip : Prop :=
  ∀ (s : State) (fs : List Presented), (∀ f ∈ fs, f.accepted) →
    ∃ t rs, runSession (hostSession fs) s [] = some (t, rs) ∧ t.block.fault = false ∧ rs.length = fs.length ∧
      (∀ r ∈ rs, ∃ m bytes, r = m :: bytes ∧ bytes.length = 5 * popcount m ∧
        (r.length = 1 ∨ r.length = 6 ∨ r.length = 11 ∨ r.length = 16 ∨ r.length = 21 ∨ r.length = 26 ∨
          r.length = 31 ∨ r.length = 36 ∨ r.length = 41)) ∧
      splitStream rs.length rs.flatten = rs ∧
      reconstruct (Vector.replicate 8 (Vector.replicate 5 0x00#8)) rs = fs.map fun f => packFrame f.raster

/-! ### Host assembly -/

/-- 30_encoding.md R78: running the expansion of `dims w, h` sets RW and RH, of `setpix x, y, v` that sample, and of
`fill RASTER, 368, v` every sample, and nothing else of the state. -/
def Obligations.InputPseudosRun : Prop :=
  ∀ (s : State) (records : List Record),
    (∀ w h, (Stmt.dims w h).wellFormed = true →
      runSession (expand (.dims w h)) s records =
        some ({ s with block := { s.block with rw := BitVec.ofNat 16 w, rh := BitVec.ofNat 16 h } }, records)) ∧
    (∀ (y : Fin 16) (x : Fin 23) v, (Stmt.setpix x.val y.val v).wellFormed = true →
      runSession (expand (.setpix x.val y.val v)) s records =
        some ({ s with block := { s.block with raster := withSample s.block.raster y x (BitVec.ofNat 8 v) } }, records)) ∧
    (∀ v, (Stmt.fill (.reg .raster 0) 368 v).wellFormed = true →
      runSession (expand (.fill (.reg .raster 0) 368 v)) s records =
        some ({ s with block :=
          { s.block with raster := Vector.replicate 16 (Vector.replicate 23 (BitVec.ofNat 8 v)) } }, records))

/-- 30_encoding.md R78: `rd32 FCOUNT` and `rd32 BCOUNT` answer four bytes whose little-endian value is the counter,
and `rdrec n` with `n = OUT_LEN` answers the record (20_memory.md R59, 10_state.md R30, R31). -/
def Obligations.ReportPseudosRun : Prop :=
  ∀ (s : State) (records : List Record),
    (∃ b0 b1 b2 b3 : Byte, runSession (expand (.rd32 (.reg .fcount 0))) s records =
        some ({ s with replies := s.replies ++ [b0, b1, b2, b3] }, records) ∧
      s.block.fcount.toNat = b0.toNat + 256 * b1.toNat + 65536 * b2.toNat + 16777216 * b3.toNat) ∧
    (∃ b0 b1 b2 b3 : Byte, runSession (expand (.rd32 (.reg .bcount 0))) s records =
        some ({ s with replies := s.replies ++ [b0, b1, b2, b3] }, records) ∧
      s.block.bcount.toNat = b0.toNat + 256 * b1.toNat + 65536 * b2.toNat + 16777216 * b3.toNat) ∧
    (s.block.outLen.toNat ≤ 41 →
      runSession (expand (.rdrec s.block.outLen.toNat)) s records =
        some ({ s with replies := s.replies ++ s.block.record }, records))
end

