-- ==== Sys2Proof/Laws/Decode.lean ====
section
/-! SUPPORT. The fields of an XACT24 word, and the cases of the decoder. -/

namespace Sys2Proof

namespace XWord

@[simp] theorem kind_make (k : BitVec 4) (z : BitVec 2) (a : Addr) (d : Byte) : kind (make k z a d) = k := by
  apply BitVec.eq_of_getLsbD_eq
  intro i hi
  interval_cases i <;> simp [kind, make]

@[simp] theorem zeros_make (k : BitVec 4) (z : BitVec 2) (a : Addr) (d : Byte) : zeros (make k z a d) = z := by
  apply BitVec.eq_of_getLsbD_eq
  intro i hi
  interval_cases i <;> simp [zeros, make]

@[simp] theorem addr_make (k : BitVec 4) (z : BitVec 2) (a : Addr) (d : Byte) : addr (make k z a d) = a := by
  apply BitVec.eq_of_getLsbD_eq
  intro i hi
  interval_cases i <;> simp [addr, make]

@[simp] theorem data_make (k : BitVec 4) (z : BitVec 2) (a : Addr) (d : Byte) : data (make k z a d) = d := by
  apply BitVec.eq_of_getLsbD_eq
  intro i hi
  interval_cases i <;> simp [data, make]

/-- A word is made of its four fields. -/
theorem make_fields (w : XWord) : make (kind w) (zeros w) (addr w) (data w) = w := by
  apply BitVec.eq_of_getLsbD_eq
  intro i hi
  interval_cases i <;> simp [kind, zeros, addr, data, make]

end XWord

/-- A word of a format's width is what its value and its width spell. -/
theorem wordOfTable_value (w : HostWord) : wordOfTable w.bits w.value = w := by
  cases w <;> simp [wordOfTable, HostWord.bits, HostWord.value]

end Sys2Proof
end

