-- ==== Sys2Proof/Laws/Packer.lean ====
section
/-! SUPPORT. What the packer computes, bit by bit: R96's loops are R94's placement. -/

namespace Sys2Proof.Machine

/-- Two packed blocks with the same 40 bits are the same. -/
theorem packedBlock_ext {p q : PackedBlock} (h : ∀ i, localBit p i = localBit q i) : p = q := by
  ext j hj k hk
  have h1 := h ⟨8 * j + (7 - k), by omega⟩
  have e1 : (8 * j + (7 - k)) / 8 = j := by omega
  have e2 : 7 - (8 * j + (7 - k)) % 8 = k := by omega
  simp only [localBit, e1, e2] at h1
  rwa [BitVec.getLsbD_eq_getElem hk, BitVec.getLsbD_eq_getElem hk] at h1

theorem one_shiftLeft_getLsbD {n k : Nat} (hn : n < 8) (hk : k < 8) : (1#8 <<< n).getLsbD k = decide (n = k) := by
  interval_cases n <;> interval_cases k <;> rfl

/-- Setting the bit of one local index sets that bit and no other (R94). -/
theorem localBit_setLocal (B : PackedBlock) (i k : Fin 40) :
    localBit (setLocal B i) k = (localBit B k || decide (i = k)) := by
  obtain ⟨i, hi⟩ := i
  obtain ⟨k, hk⟩ := k
  simp only [localBit, setLocal, Fin.mk.injEq]
  rw [Vector.getElem_set]
  split
  · rename_i h
    rw [BitVec.getLsbD_or, one_shiftLeft_getLsbD (by omega) (by omega)]
    simp only [h]
    congr 1
    apply decide_eq_decide.mpr
    omega
  · rename_i h
    have : i ≠ k := by rintro rfl; exact h rfl
    simp [this]

theorem localBit_packPixel (r : Raster) (b dy : Fin 8) (B : PackedBlock) (dx : Fin 5) (k : Fin 40) :
    localBit (packPixel r b dy B dx) k =
      (localBit B k || (pixelOn r (pixelY b dy) (pixelX b dx) && decide (localIndex dy dx = k))) := by
  unfold packPixel
  split <;> simp_all [localBit_setLocal]

theorem localBit_foldl_columns (r : Raster) (b dy : Fin 8) (k : Fin 40) (l : List (Fin 5)) (B : PackedBlock) :
    localBit (l.foldl (packPixel r b dy) B) k =
      (localBit B k || l.any fun dx => pixelOn r (pixelY b dy) (pixelX b dx) && decide (localIndex dy dx = k)) := by
  induction l generalizing B with
  | nil => simp
  | cons dx l ih => simp [ih, localBit_packPixel, Bool.or_assoc]

theorem localBit_foldl_rows (r : Raster) (b : Fin 8) (k : Fin 40) (l : List (Fin 8)) (B : PackedBlock) :
    localBit (l.foldl (fun B dy => (List.finRange 5).foldl (packPixel r b dy) B) B) k =
      (localBit B k || l.any fun dy => (List.finRange 5).any fun dx =>
        pixelOn r (pixelY b dy) (pixelX b dx) && decide (localIndex dy dx = k)) := by
  induction l generalizing B with
  | nil => simp
  | cons dy l ih => simp only [List.foldl_cons, ih, localBit_foldl_columns, List.any_cons, Bool.or_assoc]

/-- Distinct local pixels have distinct local indices. -/
theorem localIndex_inj {dy dy' : Fin 8} {dx dx' : Fin 5} (h : localIndex dy' dx' = localIndex dy dx) :
    dy' = dy ∧ dx' = dx := by
  simp only [localIndex, Config.blockW, Fin.mk.injEq] at h
  constructor <;> apply Fin.ext <;> omega

/-- R94: the bit of a local index is 1 exactly when its pixel is on. -/
theorem localBit_packBlock (r : Raster) (b dy : Fin 8) (dx : Fin 5) :
    localBit (packBlock r b) (localIndex dy dx) = pixelOn r (pixelY b dy) (pixelX b dx) := by
  unfold packBlock
  rw [localBit_foldl_rows]
  have h0 : localBit (Vector.replicate 5 0x00#8) (localIndex dy dx) = false := by simp [localBit]
  rw [h0, Bool.false_or, Bool.eq_iff_iff, List.any_eq_true]
  constructor
  · rintro ⟨dy', -, h⟩
    rw [List.any_eq_true] at h
    obtain ⟨dx', -, h⟩ := h
    rw [Bool.and_eq_true, decide_eq_true_eq] at h
    obtain ⟨rfl, rfl⟩ := localIndex_inj h.2
    exact h.1
  · intro h
    refine ⟨dy, List.mem_finRange _, ?_⟩
    rw [List.any_eq_true]
    exact ⟨dx, List.mem_finRange _, by simp [h]⟩

/-- Every local index is the index of one local pixel. -/
theorem eq_localIndex (k : Fin 40) : k = localIndex ⟨k.val / 5, by omega⟩ ⟨k.val % 5, by omega⟩ := by
  apply Fin.ext
  simp only [localIndex, Config.blockW]
  omega

/-- The same, from the index to the pixel. -/
theorem localBit_packBlock_index (r : Raster) (b : Fin 8) (k : Fin 40) :
    localBit (packBlock r b) k =
      pixelOn r (pixelY b ⟨k.val / 5, by omega⟩) (pixelX b ⟨k.val % 5, by omega⟩) := by
  conv_lhs => rw [eq_localIndex k]
  exact localBit_packBlock ..

@[simp] theorem packFrame_getElem (r : Raster) (b : Nat) (hb : b < 8) : (packFrame r)[b] = packBlock r ⟨b, hb⟩ := by
  simp [packFrame]

/-- The sample at a pixel after one sample is written. -/
theorem withSample_getElem (r : Raster) (y y' : Fin 16) (x x' : Fin 23) (d : Byte) :
    (withSample r y x d)[y'][x'] = if y' = y ∧ x' = x then d else r[y'][x'] := by
  simp only [withSample, Fin.getElem_fin, Vector.getElem_set]
  by_cases hy : y = y'
  · subst hy
    by_cases hx : x = x'
    · subst hx; simp
    · have : x.val ≠ x'.val := fun h => hx (Fin.ext h)
      simp [this, Ne.symm hx]
  · have : y.val ≠ y'.val := fun h => hy (Fin.ext h)
    simp [this, Ne.symm hy]

/-- The pixels of a block are in block columns, and the block's number and local place follow from the pixel (R91, R92). -/
theorem pixel_place (b dy : Fin 8) (dx : Fin 5) :
    (pixelX b dx).val % 6 = dx.val ∧ (pixelY b dy).val / 8 * 4 + (pixelX b dx).val / 6 = b.val ∧
      (pixelY b dy).val % 8 = dy.val := by
  simp only [pixelX, pixelY, Config.colStride, Config.gridCols, Config.blockH]
  omega

theorem packBlock_congr (r r' : Raster) (b : Fin 8)
    (h : ∀ dy dx, pixelOn r (pixelY b dy) (pixelX b dx) = pixelOn r' (pixelY b dy) (pixelX b dx)) :
    packBlock r b = packBlock r' b := by
  apply packedBlock_ext
  intro k
  rw [localBit_packBlock_index, localBit_packBlock_index, h]

theorem Block.geometryOk_iff (b : Block) : b.geometryOk = true ↔ b.rw = 23#16 ∧ b.rh = 16#16 := by
  simp [Block.geometryOk]

/-- PACK on an accepted geometry (R98). -/
theorem Block.pack_of_ok (b : Block) (h : b.rw = 23#16 ∧ b.rh = 16#16) :
    b.pack = { b with cur := packFrame b.raster, curValid := true } := by
  simp [Block.pack, b.geometryOk_iff.mpr h]

/-- PACK on any other geometry (R98, 60_exceptions.md R152). -/
theorem Block.pack_of_mismatch (b : Block) (h : b.rw ≠ 23#16 ∨ b.rh ≠ 16#16) :
    b.pack = { b with curValid := false, fault := true, err := 1#3 } := by
  have : b.geometryOk = false := by
    rw [← Bool.not_eq_true, b.geometryOk_iff]
    tauto
  simp [Block.pack, this, Block.raise, Cause.code]

end Sys2Proof.Machine
end

