-- ==== Sys2Proof/Laws/State.lean ====
section
/-! SUPPORT. One lemma per field per update of the block, and per field of the state for each way a step answers. -/

namespace Sys2Proof.Machine

variable (b : Block) (s t : State)

/-! raise -/

@[simp] theorem Block.raise_raster (c : Cause) : (b.raise c).raster = b.raster := rfl
@[simp] theorem Block.raise_rw (c : Cause) : (b.raise c).rw = b.rw := rfl
@[simp] theorem Block.raise_rh (c : Cause) : (b.raise c).rh = b.rh := rfl
@[simp] theorem Block.raise_cur (c : Cause) : (b.raise c).cur = b.cur := rfl
@[simp] theorem Block.raise_curValid (c : Cause) : (b.raise c).curValid = b.curValid := rfl
@[simp] theorem Block.raise_prev (c : Cause) : (b.raise c).prev = b.prev := rfl
@[simp] theorem Block.raise_prevValid (c : Cause) : (b.raise c).prevValid = b.prevValid := rfl
@[simp] theorem Block.raise_mask (c : Cause) : (b.raise c).mask = b.mask := rfl
@[simp] theorem Block.raise_out (c : Cause) : (b.raise c).out = b.out := rfl
@[simp] theorem Block.raise_outLen (c : Cause) : (b.raise c).outLen = b.outLen := rfl
@[simp] theorem Block.raise_fcount (c : Cause) : (b.raise c).fcount = b.fcount := rfl
@[simp] theorem Block.raise_bcount (c : Cause) : (b.raise c).bcount = b.bcount := rfl
@[simp] theorem Block.raise_fault (c : Cause) : (b.raise c).fault = true := rfl
@[simp] theorem Block.raise_err (c : Cause) : (b.raise c).err = c.code := rfl

/-! sessionReset -/

@[simp] theorem Block.sessionReset_raster : (b.sessionReset).raster = b.raster := rfl
@[simp] theorem Block.sessionReset_rw : (b.sessionReset).rw = b.rw := rfl
@[simp] theorem Block.sessionReset_rh : (b.sessionReset).rh = b.rh := rfl
@[simp] theorem Block.sessionReset_cur : (b.sessionReset).cur = b.cur := rfl
@[simp] theorem Block.sessionReset_curValid : (b.sessionReset).curValid = false := rfl
@[simp] theorem Block.sessionReset_prev : (b.sessionReset).prev = b.prev := rfl
@[simp] theorem Block.sessionReset_prevValid : (b.sessionReset).prevValid = false := rfl
@[simp] theorem Block.sessionReset_mask : (b.sessionReset).mask = 0x00#8 := rfl
@[simp] theorem Block.sessionReset_out : (b.sessionReset).out = Vector.replicate 41 0x00#8 := rfl
@[simp] theorem Block.sessionReset_outLen : (b.sessionReset).outLen = 0x00#8 := rfl
@[simp] theorem Block.sessionReset_fcount : (b.sessionReset).fcount = 0#32 := rfl
@[simp] theorem Block.sessionReset_bcount : (b.sessionReset).bcount = 0#32 := rfl
@[simp] theorem Block.sessionReset_fault : (b.sessionReset).fault = false := rfl
@[simp] theorem Block.sessionReset_err : (b.sessionReset).err = 0#3 := rfl

/-! emit -/

@[simp] theorem Block.emit_raster (m : Byte) : (b.emit m).raster = b.raster := rfl
@[simp] theorem Block.emit_rw (m : Byte) : (b.emit m).rw = b.rw := rfl
@[simp] theorem Block.emit_rh (m : Byte) : (b.emit m).rh = b.rh := rfl
@[simp] theorem Block.emit_cur (m : Byte) : (b.emit m).cur = b.cur := rfl
@[simp] theorem Block.emit_curValid (m : Byte) : (b.emit m).curValid = b.curValid := rfl
@[simp] theorem Block.emit_prev (m : Byte) : (b.emit m).prev = b.prev := rfl
@[simp] theorem Block.emit_prevValid (m : Byte) : (b.emit m).prevValid = b.prevValid := rfl
@[simp] theorem Block.emit_mask (m : Byte) : (b.emit m).mask = m := rfl
@[simp] theorem Block.emit_out (m : Byte) : (b.emit m).out = bufferOf (recordOf m b.cur) := rfl
@[simp] theorem Block.emit_outLen (m : Byte) : (b.emit m).outLen = BitVec.ofNat 8 (recordOf m b.cur).length := rfl
@[simp] theorem Block.emit_fcount (m : Byte) : (b.emit m).fcount = b.fcount := rfl
@[simp] theorem Block.emit_bcount (m : Byte) : (b.emit m).bcount = b.bcount := rfl
@[simp] theorem Block.emit_fault (m : Byte) : (b.emit m).fault = b.fault := rfl
@[simp] theorem Block.emit_err (m : Byte) : (b.emit m).err = b.err := rfl

/-! consume -/

@[simp] theorem Block.consume_raster : (b.consume).raster = b.raster := rfl
@[simp] theorem Block.consume_rw : (b.consume).rw = b.rw := rfl
@[simp] theorem Block.consume_rh : (b.consume).rh = b.rh := rfl
@[simp] theorem Block.consume_cur : (b.consume).cur = b.cur := rfl
@[simp] theorem Block.consume_curValid : (b.consume).curValid = false := rfl
@[simp] theorem Block.consume_prev : (b.consume).prev = b.cur := rfl
@[simp] theorem Block.consume_prevValid : (b.consume).prevValid = true := rfl
@[simp] theorem Block.consume_mask : (b.consume).mask = b.mask := rfl
@[simp] theorem Block.consume_out : (b.consume).out = b.out := rfl
@[simp] theorem Block.consume_outLen : (b.consume).outLen = b.outLen := rfl
@[simp] theorem Block.consume_fcount : (b.consume).fcount = b.fcount := rfl
@[simp] theorem Block.consume_bcount : (b.consume).bcount = b.bcount := rfl
@[simp] theorem Block.consume_fault : (b.consume).fault = b.fault := rfl
@[simp] theorem Block.consume_err : (b.consume).err = b.err := rfl

/-! account -/

@[simp] theorem Block.account_raster : (b.account).raster = b.raster := rfl
@[simp] theorem Block.account_rw : (b.account).rw = b.rw := rfl
@[simp] theorem Block.account_rh : (b.account).rh = b.rh := rfl
@[simp] theorem Block.account_cur : (b.account).cur = b.cur := rfl
@[simp] theorem Block.account_curValid : (b.account).curValid = b.curValid := rfl
@[simp] theorem Block.account_prev : (b.account).prev = b.prev := rfl
@[simp] theorem Block.account_prevValid : (b.account).prevValid = b.prevValid := rfl
@[simp] theorem Block.account_mask : (b.account).mask = b.mask := rfl
@[simp] theorem Block.account_out : (b.account).out = b.out := rfl
@[simp] theorem Block.account_outLen : (b.account).outLen = b.outLen := rfl
@[simp] theorem Block.account_fcount : (b.account).fcount = b.fcount + 1#32 := rfl
@[simp] theorem Block.account_bcount : (b.account).bcount = b.bcount + b.outLen.setWidth 32 := rfl
@[simp] theorem Block.account_fault : (b.account).fault = b.fault := rfl
@[simp] theorem Block.account_err : (b.account).err = b.err := rfl

/-! The block after power-on: the fields 10_state.md R39 gives a value. -/

@[simp] theorem Block.powerOn_rw (n : Nat) : (Block.powerOn n).rw = 0#16 := rfl
@[simp] theorem Block.powerOn_rh (n : Nat) : (Block.powerOn n).rh = 0#16 := rfl
@[simp] theorem Block.powerOn_curValid (n : Nat) : (Block.powerOn n).curValid = false := rfl
@[simp] theorem Block.powerOn_prevValid (n : Nat) : (Block.powerOn n).prevValid = false := rfl
@[simp] theorem Block.powerOn_mask (n : Nat) : (Block.powerOn n).mask = 0x00#8 := rfl
@[simp] theorem Block.powerOn_out (n : Nat) : (Block.powerOn n).out = Vector.replicate 41 0x00#8 := rfl
@[simp] theorem Block.powerOn_outLen (n : Nat) : (Block.powerOn n).outLen = 0x00#8 := rfl
@[simp] theorem Block.powerOn_fcount (n : Nat) : (Block.powerOn n).fcount = 0#32 := rfl
@[simp] theorem Block.powerOn_bcount (n : Nat) : (Block.powerOn n).bcount = 0#32 := rfl
@[simp] theorem Block.powerOn_fault (n : Nat) : (Block.powerOn n).fault = false := rfl
@[simp] theorem Block.powerOn_err (n : Nat) : (Block.powerOn n).err = 0#3 := rfl

/-! The answers a step is made of. -/

@[simp] theorem State.onBlock_eq (f : Block → Block) : s.onBlock f = .next { s with block := f s.block } := rfl

@[simp] theorem State.reply_eq (v : Byte) : s.reply v = .next { s with replies := s.replies ++ [v] } := rfl

@[simp] theorem State.idle_eq : s.idle = .next s := rfl

@[simp] theorem State.powerCycle_eq :
    s.powerCycle = .next { s with block := Block.powerOn (s.powerOns + 1), powerOns := s.powerOns + 1 } := rfl

/-! What each arm of `exec` is. -/

@[simp] theorem exec_pack : exec .pack s = .next { s with block := unlessFaulted Block.pack s.block } := rfl

@[simp] theorem exec_encode : exec .encode s = .next { s with block := unlessFaulted Block.encode s.block } := rfl

@[simp] theorem exec_frame : exec .frame s = .next { s with block := unlessFaulted Block.packThenEncode s.block } := rfl

@[simp] theorem exec_srst : exec .srst s = .next { s with block := s.block.sessionReset } := rfl

@[simp] theorem exec_wr (a : Addr) (v : Byte) : exec (.wr a v) s = .next { s with block := s.block.write a v } := rfl

@[simp] theorem exec_rd (a : Addr) : exec (.rd a) s = .next { s with replies := s.replies ++ [s.block.read a] } := rfl

/-- Two states with the same four fields are the same. -/
theorem State.ext_fields (hb : s.block = t.block) (hp : s.pending = t.pending) (hr : s.replies = t.replies)
    (hn : s.powerOns = t.powerOns) : s = t := by
  cases s; cases t; simp_all

/-! The FAULT guard. -/

@[simp] theorem unlessFaulted_of_fault (f : Block → Block) (h : b.fault = true) : unlessFaulted f b = b := by
  simp [unlessFaulted, h]

@[simp] theorem unlessFaulted_of_clear (f : Block → Block) (h : b.fault = false) : unlessFaulted f b = f b := by
  simp [unlessFaulted, h]

end Sys2Proof.Machine
end

