-- ==== Sys2Proof/Laws/DeltaEncoder.lean ====
section
/-! SUPPORT. What the comparator, the multiplexer and ENCODE compute. -/

namespace Sys2Proof.Machine

theorem maskOf_fold (chg : Fin 8 → Bool) (k : Fin 8) (l : List (Fin 8)) (m : Byte) :
    (l.foldl (fun m i => m ||| (if chg i then 1#8 <<< i.val else 0#8)) m).getLsbD k.val =
      (m.getLsbD k.val || l.any fun i => chg i && decide (i = k)) := by
  induction l generalizing m with
  | nil => simp
  | cons i l ih =>
    rw [List.foldl_cons, ih, BitVec.getLsbD_or, List.any_cons, Bool.or_assoc]
    congr 2
    split
    · rename_i h
      rw [one_shiftLeft_getLsbD i.isLt k.isLt, h, Bool.true_and]
      exact decide_eq_decide.mpr Fin.ext_iff.symm
    · rename_i h
      simp [h]

/-- Bit `i` of the mask is `chg[i]` (R113). -/
theorem maskOf_getLsbD (chg : Fin 8 → Bool) (i : Fin 8) : (maskOf chg).getLsbD i.val = chg i := by
  rw [maskOf, maskOf_fold, Bool.eq_iff_iff]
  simp [List.any_eq_true]

/-- A byte is its eight bits. -/
theorem byte_ext {m n : Byte} (h : ∀ i : Fin 8, m.getLsbD i.val = n.getLsbD i.val) : m = n :=
  BitVec.eq_of_getLsbD_eq fun i hi => h ⟨i, hi⟩

/-- The comparator of one lane: the two blocks differ (R112). -/
theorem blockDiffers_eq (p q : PackedBlock) : blockDiffers p q = (p != q) := by
  rw [Bool.eq_iff_iff]
  simp only [blockDiffers, bne_iff_ne, ne_eq, not_iff_not]
  have e : List.finRange 5 = [0, 1, 2, 3, 4] := by decide
  simp only [e, List.foldl_cons, List.foldl_nil]
  constructor
  · intro h
    simp only [BitVec.or_eq_zero_iff, BitVec.xor_eq_zero_iff] at h
    ext j hj
    have : j = 0 ∨ j = 1 ∨ j = 2 ∨ j = 3 ∨ j = 4 := by omega
    rcases this with rfl | rfl | rfl | rfl | rfl <;> simp_all
  · rintro rfl
    simp

/-- Bit `i` of MASK_new (R113). -/
theorem changeMask_getLsbD (first : Bool) (cur prev : PackedFrame) (i : Fin 8) :
    (changeMask first cur prev).getLsbD i.val = (first || cur[i] != prev[i]) := by
  rw [changeMask, maskOf_getLsbD, blockDiffers_eq]

theorem changeMask_first (cur prev : PackedFrame) : changeMask true cur prev = 0xFF#8 := by
  apply byte_ext
  intro i
  rw [changeMask_getLsbD]
  fin_cases i <;> rfl

theorem changeMask_same (cur : PackedFrame) : changeMask false cur cur = 0x00#8 := by
  apply byte_ext
  intro i
  rw [changeMask_getLsbD]
  simp

theorem popcount_le (m : Byte) : popcount m ≤ 8 :=
  (List.countP_le_length).trans (by simp)

theorem payload_fold_length (m : Byte) (cur : PackedFrame) (l : List (Fin 8)) :
    (l.flatMap fun i => if m.getLsbD i.val then cur[i].toList else []).length =
      5 * l.countP fun i => m.getLsbD i.val := by
  induction l with
  | nil => rfl
  | cons i l ih =>
    rw [List.flatMap_cons, List.length_append, ih, List.countP_cons]
    split <;> simp_all
    omega

/-- The payload is five bytes for each selected block (R115). -/
@[simp] theorem payload_length (m : Byte) (cur : PackedFrame) : (payload m cur).length = 5 * popcount m :=
  payload_fold_length m cur _

/-- The record's length (R115, R120). -/
@[simp] theorem recordOf_length (m : Byte) (cur : PackedFrame) : (recordOf m cur).length = 1 + 5 * popcount m := by
  simp [recordOf, Nat.add_comm]

theorem recordOf_length_le (m : Byte) (cur : PackedFrame) : (recordOf m cur).length ≤ 41 := by
  have := popcount_le m
  simp
  omega

/-- OUT_LEN holds the record's length without overflow (R121). -/
theorem recordOf_length_toNat (m : Byte) (cur : PackedFrame) :
    (BitVec.ofNat 8 (recordOf m cur).length).toNat = 1 + 5 * popcount m := by
  have := recordOf_length_le m cur
  rw [BitVec.toNat_ofNat, Nat.mod_eq_of_lt (by omega), recordOf_length]

@[simp] theorem bufferOf_getElem (r : Record) (k : Nat) (hk : k < 41) : (bufferOf r)[k] = r.getD k 0x00#8 := by
  simp [bufferOf]

/-- The buffer holds the record and nothing else (R115). -/
theorem bufferOf_take (r : Record) (h : r.length ≤ 41) : (bufferOf r).toList.take r.length = r := by
  apply List.ext_getElem
  · simp; omega
  · intro k h1 h2
    simp [h2]

/-- The blocks below `i`, block `i`, the blocks above. -/
theorem finRange_split (i : Fin 8) :
    List.finRange 8 = (List.finRange 8).filter (fun k => k.val < i.val) ++
      i :: (List.finRange 8).filter (fun k => i.val < k.val) := by
  revert i; decide

/-- A selected block's bytes stand after the blocks selected below it (R114). -/
theorem payload_getD (m : Byte) (cur : PackedFrame) (i : Fin 8) (j : Fin 5) (h : m.getLsbD i.val = true) :
    (payload m cur).getD (5 * selectedBelow m i + j.val) 0x00#8 = cur[i][j] := by
  unfold payload
  rw [finRange_split i, List.flatMap_append, List.flatMap_cons]
  have hl := payload_fold_length m cur ((List.finRange 8).filter fun k => k.val < i.val)
  have hc : ((List.finRange 8).filter fun k => k.val < i.val).countP (fun k => m.getLsbD k.val) =
      selectedBelow m i := by
    rw [List.countP_filter, selectedBelow]
    congr 1
    funext k
    exact Bool.and_comm ..
  rw [hc] at hl
  rw [List.getD_append_right _ _ _ _ (by omega), hl, Nat.add_sub_cancel_left, if_pos h,
    List.getD_append _ _ _ _ (by simp)]
  simp

/-- The selected blocks number as the mask has bits below `i` (R114). -/
theorem popcount_below (m : Byte) (i : Fin 8) : popcount (m &&& (1#8 <<< i.val - 1#8)) = selectedBelow m i := by
  unfold popcount selectedBelow
  congr 1
  funext k
  have h : ∀ i k : Fin 8, (1#8 <<< i.val - 1#8).getLsbD k.val = decide (k.val < i.val) := by decide
  rw [BitVec.getLsbD_and, h, Bool.and_comm]

theorem recordOffset_eq (m : Byte) (i : Fin 8) : recordOffset m i = 1 + 5 * selectedBelow m i := by
  rw [recordOffset, popcount_below]

/-- A selected block is counted above the blocks selected below it. -/
theorem selectedBelow_lt (m : Byte) (i : Fin 8) (h : m.getLsbD i.val = true) : selectedBelow m i + 1 ≤ popcount m := by
  unfold popcount
  rw [finRange_split i, List.countP_append, List.countP_cons, List.countP_filter]
  have : (List.finRange 8).countP (fun k => m.getLsbD k.val && decide (k.val < i.val)) = selectedBelow m i := by
    unfold selectedBelow
    congr 1
    funext k
    exact Bool.and_comm ..
  rw [this]
  simp [h]

/-- ENCODE with a fresh CUR (R118). -/
theorem Block.encode_of_valid (b : Block) (h : b.curValid = true) :
    b.encode = ((b.emit (changeMask (!b.prevValid) b.cur b.prev)).consume).account := by
  simp [Block.encode, h]

/-- ENCODE with a fresh CUR, element by element (R115, R116, R117). -/
theorem Block.encode_fields (b : Block) (h : b.curValid = true) (m : Byte)
    (hm : changeMask (!b.prevValid) b.cur b.prev = m) :
    b.encode = { b with
      mask := m, out := bufferOf (recordOf m b.cur), outLen := BitVec.ofNat 8 (recordOf m b.cur).length
      prev := b.cur, prevValid := true, curValid := false, fcount := b.fcount + 1#32
      bcount := b.bcount + (BitVec.ofNat 8 (recordOf m b.cur).length).setWidth 32 } := by
  rw [b.encode_of_valid h, hm]
  rfl

/-- ENCODE without one (R153). -/
theorem Block.encode_of_stale (b : Block) (h : b.curValid = false) : b.encode = b.raise .sequence := by
  simp [Block.encode, h]

end Sys2Proof.Machine
end

