-- ==== Sys2Proof/Laws/HostPort.lean ====
section
/-! SUPPORT. The address map both ways, and what a host write does to a later read. -/

namespace Sys2Proof.Machine

/-- Where an address of each region lies (20_memory.md R51–R53). -/
def Region.holds (a : Addr) : Region → Prop
  | .raster y x => a.toNat = y.val * 23 + x.val
  | .rwLo => a.toNat = 0x180
  | .rwHi => a.toNat = 0x181
  | .rhLo => a.toNat = 0x182
  | .rhHi => a.toNat = 0x183
  | .cmd => a.toNat = 0x184
  | .status => a.toNat = 0x185
  | .mask => a.toNat = 0x186
  | .outLen => a.toNat = 0x187
  | .fcount k => a.toNat = 0x188 + k.val
  | .bcount k => a.toNat = 0x18C + k.val
  | .out k => a.toNat = 0x190 + k.val
  | .cur i j => a.toNat = 0x1C0 + 5 * i.val + j.val
  | .prev i j => a.toNat = 0x200 + 5 * i.val + j.val
  | .reserved => (0x170 ≤ a.toNat ∧ a.toNat ≤ 0x17F) ∨ (0x1B9 ≤ a.toNat ∧ a.toNat ≤ 0x1BF) ∨
      (0x1E8 ≤ a.toNat ∧ a.toNat ≤ 0x1FF) ∨ 0x228 ≤ a.toNat

/-- An address lies where its region says. -/
theorem region_holds (a : Addr) : (region a).holds a := by
  have hlt := a.isLt
  unfold region
  by_cases h0 : a.toNat ≤ 0x16F
  · rw [dif_pos h0]
    simp only [Region.holds]
    omega
  rw [dif_neg h0]
  by_cases h1 : a.toNat = 0x180
  · rw [if_pos h1]
    exact h1
  rw [if_neg h1]
  by_cases h2 : a.toNat = 0x181
  · rw [if_pos h2]
    exact h2
  rw [if_neg h2]
  by_cases h3 : a.toNat = 0x182
  · rw [if_pos h3]
    exact h3
  rw [if_neg h3]
  by_cases h4 : a.toNat = 0x183
  · rw [if_pos h4]
    exact h4
  rw [if_neg h4]
  by_cases h5 : a.toNat = 0x184
  · rw [if_pos h5]
    exact h5
  rw [if_neg h5]
  by_cases h6 : a.toNat = 0x185
  · rw [if_pos h6]
    exact h6
  rw [if_neg h6]
  by_cases h7 : a.toNat = 0x186
  · rw [if_pos h7]
    exact h7
  rw [if_neg h7]
  by_cases h8 : a.toNat = 0x187
  · rw [if_pos h8]
    exact h8
  rw [if_neg h8]
  by_cases h9 : 0x188 ≤ a.toNat ∧ a.toNat ≤ 0x18B
  · rw [dif_pos h9]
    simp only [Region.holds]
    omega
  rw [dif_neg h9]
  by_cases h10 : 0x18C ≤ a.toNat ∧ a.toNat ≤ 0x18F
  · rw [dif_pos h10]
    simp only [Region.holds]
    omega
  rw [dif_neg h10]
  by_cases h11 : 0x190 ≤ a.toNat ∧ a.toNat ≤ 0x1B8
  · rw [dif_pos h11]
    simp only [Region.holds]
    omega
  rw [dif_neg h11]
  by_cases h12 : 0x1C0 ≤ a.toNat ∧ a.toNat ≤ 0x1E7
  · rw [dif_pos h12]
    simp only [Region.holds]
    omega
  rw [dif_neg h12]
  by_cases h13 : 0x200 ≤ a.toNat ∧ a.toNat ≤ 0x227
  · rw [dif_pos h13]
    simp only [Region.holds]
    omega
  rw [dif_neg h13]
  simp only [Region.holds]
  omega

/-- No address lies in two regions. -/
theorem holds_unique {a : Addr} {r r' : Region} (h : r.holds a) (h' : r'.holds a) : r = r' := by
  cases r <;> cases r' <;> simp only [Region.holds] at h h' <;>
    first
    | rfl
    | (exfalso; omega)
    | (congr 1 <;> apply Fin.ext <;> omega)

/-- The region of an address is the one it lies in. -/
theorem region_eq {a : Addr} {r : Region} (h : r.holds a) : region a = r := holds_unique (region_holds a) h

@[simp] theorem region_rasterAddr (y : Fin 16) (x : Fin 23) : region (rasterAddr y x) = .raster y x := by
  apply region_eq
  simp only [Region.holds, rasterAddr, BitVec.toNat_ofNat]
  omega

/-- An address of RASTER, RW or RH is one the host can store to, and no other is. -/
theorem isStorage_iff (a : Addr) : isStorage a ↔
    (∃ y x, region a = .raster y x) ∨ region a = .rwLo ∨ region a = .rwHi ∨ region a = .rhLo ∨ region a = .rhHi := by
  have := region_holds a
  cases h : region a <;> simp only [h, Region.holds] at this <;> simp <;> omega

@[simp] theorem loByte_withLo (v : Dim) (d : Byte) : loByte (withLo v d) = d := by
  apply BitVec.eq_of_getLsbD_eq
  intro i hi
  interval_cases i <;> simp [loByte, withLo]

@[simp] theorem hiByte_withLo (v : Dim) (d : Byte) : hiByte (withLo v d) = hiByte v := by
  apply BitVec.eq_of_getLsbD_eq
  intro i hi
  interval_cases i <;> simp [hiByte, withLo]

@[simp] theorem loByte_withHi (v : Dim) (d : Byte) : loByte (withHi v d) = loByte v := by
  apply BitVec.eq_of_getLsbD_eq
  intro i hi
  interval_cases i <;> simp [loByte, withHi]

@[simp] theorem hiByte_withHi (v : Dim) (d : Byte) : hiByte (withHi v d) = d := by
  apply BitVec.eq_of_getLsbD_eq
  intro i hi
  interval_cases i <;> simp [hiByte, withHi]

/-- A 16-bit register is its two bytes (20_memory.md R59). -/
theorem dim_ext {v w : Dim} (hlo : loByte v = loByte w) (hhi : hiByte v = hiByte w) : v = w := by
  apply BitVec.eq_of_getLsbD_eq
  intro i hi
  have l := fun k => congrArg (fun b : Byte => b.getLsbD k) hlo
  have h := fun k => congrArg (fun b : Byte => b.getLsbD k) hhi
  simp only [loByte, hiByte, BitVec.getLsbD_extractLsb'] at l h
  by_cases hi8 : i < 8
  · simpa [hi8] using l i
  · have := h (i - 8)
    rw [show 8 + (i - 8) = i by omega] at this
    simpa [show i - 8 < 8 by omega] using this

/-- A write to anything but storage or CMD has no effect (20_memory.md R57). -/
theorem write_elsewhere (b : Block) (a : Addr) (v : Byte) (hs : ¬ isStorage a) (hc : a ≠ 0x184#10) : b.write a v = b := by
  rw [isStorage_iff] at hs
  have hcmd : region a ≠ .cmd := by
    intro h
    have := region_holds a
    rw [h] at this
    exact hc (BitVec.eq_of_toNat_eq this)
  unfold Block.write
  cases h : region a <;> simp_all

/-- CMD runs the byte (20_memory.md R57, 42_sequencing.md R130). -/
@[simp] theorem write_cmd (b : Block) (v : Byte) : b.write 0x184#10 v = b.command v := rfl

/-- What a write to storage leaves alone: every element but RASTER, RW and RH. -/
theorem write_storage_frame (b : Block) (a : Addr) (v : Byte) (hs : isStorage a) :
    b.write a v = { b with raster := (b.write a v).raster, rw := (b.write a v).rw, rh := (b.write a v).rh } := by
  rw [isStorage_iff] at hs
  unfold Block.write
  rcases hs with ⟨y, x, h⟩ | h | h | h | h <;> simp [h]

end Sys2Proof.Machine
end

