-- ==== Sys2Proof/Laws/PerInstr.lean ====
section
/-! SUPPORT. The encoder against opcode_table.json, one lemma per instruction. -/

namespace Sys2Proof.Laws.TableRow

/-- The word of an instruction has its row's width, and the bits of its row's mask are its row's match. -/
def Statement (i : Instr) : Prop :=
  (encode i).bits = i.row.bits ∧ (encode i).value &&& i.row.mask = i.row.value

theorem pack : Statement .pack := ⟨rfl, by decide⟩

theorem encode : Statement .encode := ⟨rfl, by decide⟩

theorem frame : Statement .frame := ⟨rfl, by decide⟩

theorem srst : Statement .srst := ⟨rfl, by decide⟩

theorem wr (addr : Addr) (data : Byte) : Statement (.wr addr data) := by
  refine ⟨rfl, ?_⟩
  have h : XWord.make 0x1#4 0#2 addr data &&& 0xFC0000#24 = 0x100000#24 := by
    apply BitVec.eq_of_getLsbD_eq
    intro i hi
    interval_cases i <;> simp [XWord.make]
  exact congrArg BitVec.toNat h

theorem rd (addr : Addr) : Statement (.rd addr) := by
  refine ⟨rfl, ?_⟩
  have h : XWord.make 0x0#4 0#2 addr 0x00#8 &&& 0xFC00FF#24 = 0x000000#24 := by
    apply BitVec.eq_of_getLsbD_eq
    intro i hi
    interval_cases i <;> simp [XWord.make]
  exact congrArg BitVec.toNat h

end Sys2Proof.Laws.TableRow
end

