-- ==== Sys2Proof/Laws/Sequencing.lean ====
section
/-! SUPPORT. What each command can do to the block, said once. -/

namespace Sys2Proof.Machine

/-- What PACK can change (40_packer.md R98). -/
theorem pack_leaves (b : Block) : b.pack =
    { b with cur := b.pack.cur, curValid := b.pack.curValid, fault := b.pack.fault, err := b.pack.err } := by
  unfold Block.pack
  split <;> rfl

/-- What ENCODE can change (41_delta_encoder.md R118). -/
theorem encode_leaves (b : Block) : b.encode =
    { b with
      prev := b.encode.prev, curValid := b.encode.curValid, prevValid := b.encode.prevValid, mask := b.encode.mask
      out := b.encode.out, outLen := b.encode.outLen, fcount := b.encode.fcount, bcount := b.encode.bcount
      fault := b.encode.fault, err := b.encode.err } := by
  unfold Block.encode
  split <;> rfl

/-- Everything `Command(v)` can do (42_sequencing.md R130). -/
theorem command_cases (b : Block) (v : Byte) :
    b.command v = b ∨ (b.command v = b.sessionReset ∧ v = 0x80#8) ∨
    (b.fault = false ∧
      ((v = 0x01#8 ∧ b.command v = b.pack) ∨ (v = 0x02#8 ∧ b.command v = b.encode) ∨
        (v = 0x03#8 ∧ b.command v = b.packThenEncode) ∨ (¬ isCommand v ∧ b.command v = b.illegal))) := by
  unfold Block.command
  cases hf : b.fault
  · simp only [Bool.false_eq_true, if_false]
    split_ifs <;> simp_all [isCommand]
  · simp only [if_true]
    split_ifs <;> simp_all

/-- FRAME's effect is PACK's and then, through the FAULT guard, ENCODE's (42_sequencing.md R132). -/
theorem packThenEncode_eq (b : Block) : b.packThenEncode = unlessFaulted Block.encode b.pack := rfl

/-- The block after a FRAME that packed `cur` and selected the blocks of `m`. -/
def Block.framed (b : Block) (cur : PackedFrame) (m : Byte) : Block :=
  { b with
    cur := cur, mask := m, out := bufferOf (recordOf m cur), outLen := BitVec.ofNat 8 (recordOf m cur).length
    prev := cur, prevValid := true, curValid := false, fcount := b.fcount + 1#32
    bcount := b.bcount + (BitVec.ofNat 8 (recordOf m cur).length).setWidth 32 }

/-- FRAME on an accepted raster, element by element (42_sequencing.md R132). -/
theorem packThenEncode_of_ready (b : Block) (h : b.ready) (cur : PackedFrame) (m : Byte)
    (hc : packFrame b.raster = cur) (hm : changeMask (!b.prevValid) cur b.prev = m) :
    b.packThenEncode = b.framed cur m := by
  unfold Block.packThenEncode
  rw [Block.pack_of_ok _ h.2, if_neg (by simp [h.1]), hc,
    Block.encode_fields { b with cur := cur, curValid := true } rfl m hm]
  rfl

/-- The record in a buffer that holds one. -/
theorem record_eq (b : Block) (m : Byte) (cur : PackedFrame) (ho : b.out = bufferOf (recordOf m cur))
    (hl : b.outLen = BitVec.ofNat 8 (recordOf m cur).length) : b.record = recordOf m cur := by
  rw [Block.record, ho, hl, recordOf_length_toNat, ← recordOf_length m cur, bufferOf_take _ (recordOf_length_le ..)]

end Sys2Proof.Machine
end

