-- ==== Sys2Proof/Laws/Step.lean ====
section
/-! SUPPORT. What a step can do, said once. -/

namespace Sys2Proof.Machine

/-- What an instruction does to the block. -/
def blockAfter : Instr → Block → Block
  | .pack, b => unlessFaulted Block.pack b
  | .encode, b => unlessFaulted Block.encode b
  | .frame, b => unlessFaulted Block.packThenEncode b
  | .srst, b => b.sessionReset
  | .wr a v, b => b.write a v
  | .rd _, b => b

/-- What the port answers to an instruction. -/
def repliesOf : Instr → Block → List Byte
  | .rd a, b => [b.read a]
  | _, _ => []

/-- Every instruction answers a next state, made of its effect on the block and its reply (60_exceptions.md R166). -/
theorem exec_eq (i : Instr) (s : State) :
    exec i s = .next { s with block := blockAfter i s.block, replies := s.replies ++ repliesOf i s.block } := by
  cases i <;> simp [blockAfter, repliesOf]

/-- The block's effect of an instruction is that of its command byte, where it has one (30_encoding.md R70). -/
theorem blockAfter_of_command {i : Instr} {v : Byte} (h : commandByte i = some v) (b : Block) :
    blockAfter i b = b.command v := by
  cases i with
  | wr a d =>
    simp only [commandByte] at h
    split at h
    · rename_i hr
      simp only [Option.some.injEq] at h
      subst h
      simp [blockAfter, Block.write, hr]
    · cases h
  | rd a => cases h
  | _ =>
    simp only [commandByte, Option.some.injEq] at h
    subst h
    cases hf : b.fault <;> simp [blockAfter, Block.command, hf]

/-- Without a command byte, an instruction changes at most RASTER, RW and RH. -/
theorem blockAfter_of_none {i : Instr} (h : commandByte i = none) (b : Block) :
    blockAfter i b = { b with raster := (blockAfter i b).raster, rw := (blockAfter i b).rw, rh := (blockAfter i b).rh } := by
  cases i with
  | wr a d =>
    simp only [commandByte, ite_eq_right_iff, reduceCtorEq, imp_false] at h
    by_cases hs : isStorage a
    · exact write_storage_frame b a d hs
    · have hc : a ≠ 0x184#10 := by
        rintro rfl
        exact h rfl
      simp [blockAfter, write_elsewhere b a d hs hc]
  | rd a => rfl
  | _ => cases h

/-- The cases of a step that answers a next state. -/
theorem step_next_cases {s t : State} (h : step s = .next t) :
    (s.pending = [] ∧ t = s) ∨
    (∃ rest, s.pending = .powerOn :: rest ∧
      t = { s with block := Block.powerOn (s.powerOns + 1), pending := rest, powerOns := s.powerOns + 1 }) ∨
    (∃ w i rest, s.pending = .access w :: rest ∧ decode w = .ok i ∧
      t = { s with block := blockAfter i s.block, pending := rest, replies := s.replies ++ repliesOf i s.block }) ∨
    (∃ op rest, s.pending = .access (.cmd8 op) :: rest ∧ ¬ isCommand op ∧
      t = { s with block := s.block.command op, pending := rest }) := by
  unfold step State.nextEvent at h
  cases hp : s.pending with
  | nil =>
    simp only [hp, State.idle_eq, Host.Outcome.next.injEq] at h
    exact .inl ⟨rfl, h.symm⟩
  | cons e rest =>
    simp only [hp] at h
    cases e with
    | powerOn =>
      simp only [runEvent, State.powerCycle_eq, Host.Outcome.next.injEq] at h
      exact .inr (.inl ⟨rest, rfl, h.symm⟩)
    | access w =>
      simp only [runEvent, runWord] at h
      cases hd : decode w with
      | ok i =>
        simp only [hd, exec_eq, Host.Outcome.next.injEq] at h
        exact .inr (.inr (.inl ⟨w, i, rest, rfl, hd, h.symm⟩))
      | rejected why =>
        simp only [hd, State.rejectedWord] at h
        cases why with
        | illegalCommand op =>
          cases w with
          | xact24 w =>
            simp only [decode, decodeXact24] at hd
            split_ifs at hd
            all_goals cases hd
          | cmd8 op' =>
            have hc : ¬ isCommand op' ∧ op' = op := by
              simp only [decode, decodeCmd8] at hd
              split_ifs at hd
              simp_all [isCommand]
            obtain ⟨hc, rfl⟩ := hc
            refine .inr (.inr (.inr ⟨op', rest, rfl, hc, ?_⟩))
            simp only [State.onBlock_eq, Host.Outcome.next.injEq] at h
            rw [← h]
            simp only [isCommand, not_or] at hc
            cases hf : s.block.fault <;> simp [Block.command, hf, hc]
        | _ => simp at h

end Sys2Proof.Machine
end

