-- ==== Sys2Proof/Laws/Session.lean ====
section
/-! SUPPORT. Runs of accesses: one access at a time, and one list after another. -/

namespace Sys2Proof.Machine

/-- The first access of a run. -/
theorem runSession_cons (i : Instr) (is : List Instr) (s : State) (records : List Record) :
    runSession (i :: is) s records =
      runSession is { s with block := blockAfter i s.block, replies := s.replies ++ repliesOf i s.block }
        (recordsAfter i s.block (blockAfter i s.block) records) := by
  simp [runSession, exec_eq]

/-- A run of two lists of accesses is the two runs one after another. -/
theorem runSession_append (is js : List Instr) (s : State) (records : List Record) :
    runSession (is ++ js) s records = (runSession is s records).bind fun p => runSession js p.1 p.2 := by
  induction is generalizing s records with
  | nil => rfl
  | cons i is ih => rw [List.cons_append, runSession_cons, runSession_cons, ih]

/-- An access that writes no byte to CMD makes no record and starts no session. -/
theorem recordsAfter_none {i : Instr} (h : commandByte i = none) (b c : Block) (records : List Record) :
    recordsAfter i b c records = records := by
  simp [recordsAfter, startsSession, asksRecord, h]

/-- The first access of the host's own run. -/
theorem runAll_cons (i : Instr) (is : List Instr) (s : State) :
    runAll (i :: is) s =
      runAll is { s with block := blockAfter i s.block, replies := s.replies ++ repliesOf i s.block } := by
  simp [runAll, exec_eq]

/-- The host's run of two lists of accesses is the two runs one after another. -/
theorem runAll_append (is js : List Instr) (s : State) : runAll (is ++ js) s = (runAll is s).bind (runAll js) := by
  induction is generalizing s with
  | nil => rfl
  | cons i is ih => rw [List.cons_append, runAll_cons, runAll_cons, ih]

/-- Keeping the records of a run changes nothing of it. -/
theorem runSession_fst (is : List Instr) (s : State) (records : List Record) :
    (runSession is s records).map Prod.fst = runAll is s := by
  induction is generalizing s records with
  | nil => rfl
  | cons i is ih => rw [runSession_cons, runAll_cons, ih]

/-- Both ways of having a frame encoded act alike on every state (42_sequencing.md R137 step 3, R132). -/
theorem runAll_commands (way : EncodeWay) (s : State) :
    runAll way.commands s = some { s with block := unlessFaulted Block.packThenEncode s.block } := by
  cases way with
  | frame => simp [EncodeWay.commands, runAll]
  | packEncode => cases hf : s.block.fault <;> simp [EncodeWay.commands, runAll, packThenEncode_eq, hf]

end Sys2Proof.Machine
end

