-- ==== Sys2Proof/Tests/Slice0.lean ====
section
/-! SUPPORT. The model's own tests. Every expected value stands in spec/: in 95_test_vectors.md (named V and its
section below), in a rule's own example, or in a table copied field by field. The witnesses of the obligations'
hypotheses stand at the end. -/

namespace Sys2Proof.Tests

open Sys2Proof.Machine

/-! ### Helpers -/

/-- The raster whose samples are 0x00 where `on` holds and 0xFF elsewhere; the arguments are `x` and `y`. -/
def rasterOf (on : Nat → Nat → Bool) : Raster :=
  Vector.ofFn fun y => Vector.ofFn fun x => if on x.val y.val then 0x00#8 else 0xFF#8

/-- The raster with one pixel on. -/
def onePixel (px py : Nat) : Raster := rasterOf fun x y => x == px && y == py

/-- A frame of eight blocks with the same five bytes. -/
def sameBlocks (p : PackedBlock) : PackedFrame := Vector.replicate 8 p

/-- A block with all its bits 0. -/
def zeroBlock : PackedBlock := Vector.replicate 5 0x00#8

/-- A block of hardware state with an accepted geometry, an all-background raster and everything else 0. -/
def idleBlock : Block where
  raster := rasterOf fun _ _ => false
  rw := 23#16
  rh := 16#16
  cur := sameBlocks zeroBlock
  curValid := false
  prev := sameBlocks zeroBlock
  prevValid := false
  mask := 0x00#8
  out := Vector.replicate 41 0x00#8
  outLen := 0#8
  fcount := 0#32
  bcount := 0#32
  fault := false
  err := 0#3

/-- `idleBlock` after a fault. -/
def faultedBlock : Block := { idleBlock with fault := true, err := 1#3 }

/-- `idleBlock` with a fresh CUR whose block 2 differs from PREV, and PREV valid (V 2.5, third row). -/
def freshBlock : Block :=
  { idleBlock with
    cur := (sameBlocks zeroBlock).set 2 #v[0x00#8, 0x01#8, 0x00#8, 0x00#8, 0x00#8]
    curValid := true, prevValid := true }

/-- A state around a block, with the host's next events. -/
def around (b : Block) (events : List HostEvent) : State := ⟨b, events, [], 0⟩

/-- The block an outcome leaves, if it is a next state. -/
def blockOf : Result → Option Block
  | .next t => some t.block
  | .fault _ => none
  | .refused _ => none

/-- What an outcome has answered to the host, if it is a next state. -/
def answersOf : Result → List Byte
  | .next t => t.replies
  | .fault _ => []
  | .refused _ => []

/-- The STATUS byte an outcome leaves. -/
def statusOf (r : Result) : Option Byte := (blockOf r).map fun b => b.read 0x185#10

/-- The block after one write to CMD. -/
def afterCmd (b : Block) (v : Byte) : Option Block := blockOf (exec (.wr 0x184#10 v) (around b []))

/-- STATUS after one write to CMD. -/
def statusAfter (b : Block) (v : Byte) : Option Byte := statusOf (exec (.wr 0x184#10 v) (around b []))

/-- One block of the packed frame of a raster. -/
def packed (r : Raster) (k : Fin 8) : List Byte := ((packFrame r)[k]).toList

/-! ### Program lines the check refuses, one for each check (30_encoding.md R77, R78) -/

theorem test_wellFormed_address : (Stmt.rd (.num 0x400)).wellFormed = false ∧ (Stmt.rd (.num 0x3FF)).wellFormed = true := by
  decide

theorem test_wellFormed_offset :
    (Stmt.wr (.reg .prev 0x200) 0).wellFormed = false ∧ (Stmt.wr (.reg .prev 0x1FF) 0).wellFormed = true := by decide

theorem test_wellFormed_byte : (Stmt.wr (.num 0) 0x100).wellFormed = false ∧ (Stmt.wr (.num 0) 0xFF).wellFormed = true := by
  decide

theorem test_wellFormed_half :
    (Stmt.wr16 (.reg .rwLo 0) 0x10000).wellFormed = false ∧ (Stmt.wr16 (.reg .rwLo 0) 0xFFFF).wellFormed = true ∧
    (Stmt.dims 0x10000 16).wellFormed = false ∧ (Stmt.dims 23 0x10000).wellFormed = false := by decide

theorem test_wellFormed_halfAddress : (Stmt.wr16 (.num 0x3FF) 0).wellFormed = false := by decide

theorem test_wellFormed_pixel :
    (Stmt.setpix 23 15 0).wellFormed = false ∧ (Stmt.setpix 22 16 0).wellFormed = false ∧
    (Stmt.setpix 22 15 0x100).wellFormed = false ∧ (Stmt.setpix 22 15 0xFF).wellFormed = true := by decide

theorem test_wellFormed_runs :
    (Stmt.fill (.num 0x3FF) 2 0).wellFormed = false ∧ (Stmt.rd32 (.num 0x3FD)).wellFormed = false ∧
    (Stmt.rdrec 0x271).wellFormed = false ∧ (Stmt.fill (.reg .raster 0) 368 0x00).wellFormed = true := by decide

/-- `fill` and `rdrec` of no bytes are accepted (log entry 19), at an address of R77's range only. -/
theorem test_wellFormed_none :
    (Stmt.fill (.num 0x3FF) 0 0).wellFormed = true ∧ (Stmt.fill (.num 0x400) 0 0).wellFormed = false ∧
    (Stmt.rdrec 0).wellFormed = true ∧ expand (.rdrec 0) = [] := by decide

theorem test_wellFormed_line :
    Line.wellFormed ⟨none, some (.setpix 23 0 0), none⟩ = false ∧ Line.wellFormed ⟨some ['a'], none, none⟩ = true := by
  decide

/-! ### Decoding: words written out from 30_encoding.md R70, R71, R73, R74 -/

theorem test_decode_pack : decode (.cmd8 0b00000001#8) = .ok .pack := by decide
theorem test_decode_encode : decode (.cmd8 0b00000010#8) = .ok .encode := by decide
theorem test_decode_frame : decode (.cmd8 0b00000011#8) = .ok .frame := by decide
theorem test_decode_srst : decode (.cmd8 0b10000000#8) = .ok .srst := by decide

/-- R71's example: `118403` writes 0x03 to 0x184. Then every field at its largest value. -/
theorem test_decode_wr :
    decode (.xact24 0b0001_00_0110000100_00000011#24) = .ok (.wr 0x184#10 0x03#8) ∧
    decode (.xact24 0b0001_00_1111111111_11111111#24) = .ok (.wr 0x3FF#10 0xFF#8) := by decide

/-- R71's example: `018500` reads STATUS. -/
theorem test_decode_rd :
    decode (.xact24 0b0000_00_0110000101_00000000#24) = .ok (.rd 0x185#10) ∧
    decode (.xact24 0b0000_00_1000000000_00000000#24) = .ok (.rd 0x200#10) := by decide

/-- R73: "0x81, 0x82 and 0x83 are illegal". -/
theorem test_decode_illegal :
    decode (.cmd8 0x81#8) = .rejected (.illegalCommand 0x81#8) ∧ decode (.cmd8 0x83#8) = .rejected (.illegalCommand 0x83#8) ∧
    decode (.cmd8 0x00#8) = .rejected (.illegalCommand 0x00#8) := by decide

theorem test_decode_noAccess :
    decode (.xact24 0x158403#24) = .rejected (.reservedBits 0x158403#24) ∧
    decode (.xact24 0x218403#24) = .rejected (.unknownKind 0x218403#24) ∧
    decode (.xact24 0x018501#24) = .rejected (.readWithData 0x018501#24) := by decide

/-- opcode_table.json: the row of every instruction, with its operand bits 0. -/
theorem test_tableWords :
    decodeTableWord 8 0x01 = some .pack ∧ decodeTableWord 8 0x02 = some .encode ∧ decodeTableWord 8 0x03 = some .frame ∧
    decodeTableWord 8 0x80 = some .srst ∧ decodeTableWord 24 0x100000 = some (.wr 0#10 0#8) ∧
    decodeTableWord 24 0x000000 = some (.rd 0#10) ∧ decodeTableWord 16 0x01 = none := by decide

theorem test_fetchedWordRuns :
    statusOf (step (State.reset.withFetchWord 8 0x02)) = some 0x05#8 ∧
    statusOf (step (State.reset.withFetchWord 24 0x118401)) = some 0x03#8 := by decide

/-! ### The constants of 00_scope.md R8 and the types that stand for them -/

theorem test_constants :
    Config.frameW = Config.gridCols * Config.blockW + 3 ∧ Config.frameH = Config.gridRows * Config.blockH ∧
    Config.nBlocks = Config.gridRows * Config.gridCols ∧ Config.colStride = Config.blockW + 1 ∧
    Config.recMax = Config.recMin + Config.nBlocks * Config.blockBytes ∧
    Config.blockBytes * 8 = Config.blockW * Config.blockH := by decide

theorem test_widths :
    (idleBlock.raster).toList.length = Config.frameH ∧ (idleBlock.raster[0]).toList.length = Config.frameW ∧
    (idleBlock.cur).toList.length = Config.nBlocks ∧ (idleBlock.cur[0]).toList.length = Config.blockBytes ∧
    (idleBlock.out).toList.length = Config.recMax := by decide

/-! ### The packer (V 2.1, 2.2, 2.3, 2.4) -/

/-- V 2.1: the first and the last pixel, and two inside. -/
theorem test_packer_pixels :
    packed (onePixel 0 0) 0 = [0x80#8, 0x00#8, 0x00#8, 0x00#8, 0x00#8] ∧
    packed (onePixel 22 15) 7 = [0x00#8, 0x00#8, 0x00#8, 0x00#8, 0x01#8] ∧
    packed (onePixel 12 3) 2 = [0x00#8, 0x01#8, 0x00#8, 0x00#8, 0x00#8] ∧
    packed (onePixel 9 13) 5 = [0x00#8, 0x00#8, 0x00#8, 0x08#8, 0x00#8] := by decide +kernel

/-- V 2.2, every gap pixel and no other; V 2.3, the box. -/
theorem test_packer_shapes :
    packFrame (rasterOf fun x _ => x == 5 || x == 11 || x == 17) = sameBlocks zeroBlock ∧
    packed (rasterOf fun x y => x ≤ 4 && y ≥ 8 && (y == 8 || y == 15 || x == 0 || x == 4)) 4 =
      [0xFC#8, 0x63#8, 0x18#8, 0xC6#8, 0x3F#8] := by decide +kernel

/-- V 2.4: all foreground, and STATUS = 0x20. -/
theorem test_pack_allForeground :
    (afterCmd { idleBlock with raster := rasterOf fun _ _ => true } 0x01#8).map (fun b => (b.cur, b.status)) =
      some (sameBlocks (Vector.replicate 5 0xFF#8), 0x20#8) := by decide +kernel

theorem test_pack_geometry :
    statusAfter { idleBlock with rw := 24#16 } 0x01#8 = some 0x03#8 ∧
    statusAfter { idleBlock with rh := 15#16 } 0x01#8 = some 0x03#8 ∧
    statusAfter { idleBlock with rw := 0xFFFF#16 } 0x01#8 = some 0x03#8 ∧
    statusAfter { idleBlock with rw := 16#16, rh := 23#16 } 0x01#8 = some 0x03#8 := by decide +kernel

/-! ### The delta encoder (V 2.5, 2.6, 2.7) -/

/-- V 2.5, third row, and P2's record form: mask 04, length 6, block 2's bytes, then 0x00. -/
theorem test_encode_record :
    (afterCmd freshBlock 0x02#8).map (fun b => (b.mask, b.outLen, b.out.toList.take 8)) =
      some (0x04#8, 6#8, [0x04#8, 0x00#8, 0x01#8, 0x00#8, 0x00#8, 0x00#8, 0x00#8, 0x00#8]) := by decide +kernel

/-- V 2.7: both counters wrap on a record of length 6. -/
theorem test_encode_wraps :
    (afterCmd { freshBlock with fcount := 0xFFFFFFFF#32, bcount := 0xFFFFFFFE#32 } 0x02#8).map
      (fun b => (b.fcount, b.bcount, b.status)) = some (0#32, 4#32, 0x10#8) := by decide +kernel

/-- V 2.5: the first frame, and the single-bit differences. -/
theorem test_mask :
    changeMask true (sameBlocks zeroBlock) (sameBlocks zeroBlock) = 0xFF#8 ∧
    changeMask false (sameBlocks zeroBlock) (sameBlocks zeroBlock) = 0x00#8 ∧
    changeMask false ((sameBlocks zeroBlock).set 3 #v[0x12#8, 0x34#8, 0x56#8, 0x78#8, 0x9B#8])
      ((sameBlocks zeroBlock).set 3 #v[0x12#8, 0x34#8, 0x56#8, 0x78#8, 0x9A#8]) = 0x08#8 := by decide

/-- V 2.6: the offsets of 24 and A0. -/
theorem test_offsets :
    recordOffset 0x24#8 2 = 1 ∧ recordOffset 0x24#8 5 = 6 ∧ recordOffset 0xA0#8 5 = 1 ∧ recordOffset 0xA0#8 7 = 6 ∧
    recordOffset 0xFF#8 7 = 36 ∧ recordOffset 0x0F#8 3 = 16 := by decide

/-! ### FRAME, SRST and the illegal bytes (V 2.8) -/

theorem test_frame_status :
    (afterCmd idleBlock 0x03#8).map (fun b => (b.status, b.fcount, b.bcount, b.mask)) =
      some (0x10#8, 1#32, 41#32, 0xFF#8) := by decide +kernel

theorem test_frame_mismatch : statusAfter { idleBlock with prevValid := true, rw := 24#16 } 0x03#8 = some 0x13#8 := by
  decide +kernel

/-- R134's example: from FAULT = 1, ERR = 1, FCOUNT = 5. -/
theorem test_srst_example :
    (afterCmd { faultedBlock with fcount := 5#32, outLen := 1#8 } 0x80#8).map
      (fun b => (b.status, b.fcount, b.bcount, b.outLen)) = some (0x00#8, 0#32, 0#32, 0#8) := by decide

theorem test_illegal_bytes :
    statusAfter idleBlock 0x00#8 = some 0x07#8 ∧ statusAfter idleBlock 0x04#8 = some 0x07#8 ∧
    statusAfter idleBlock 0x82#8 = some 0x07#8 ∧ statusAfter idleBlock 0xFF#8 = some 0x07#8 := by decide

theorem test_faulted_ignores :
    statusAfter { faultedBlock with prevValid := true } 0x03#8 = some 0x13#8 ∧
    statusAfter { faultedBlock with prevValid := true } 0x05#8 = some 0x13#8 := by decide

/-! ### The host port (V 2.9) -/

theorem test_rd_counter :
    [0x188#10, 0x189#10, 0x18A#10, 0x18B#10].map (fun a => answersOf (exec (.rd a)
      (around { idleBlock with fcount := 0x01020304#32 } []))) = [[0x04#8], [0x03#8], [0x02#8], [0x01#8]] := by decide

theorem test_rd_zeros :
    [0x184#10, 0x170#10, 0x1B9#10, 0x1E8#10, 0x228#10, 0x3FF#10].all
      (fun a => answersOf (exec (.rd a) (around faultedBlock [])) == [0x00#8]) = true := by decide

theorem test_wr_readOnly :
    blockOf (exec (.wr 0x185#10 0xFF#8) (around idleBlock [])) = some idleBlock ∧
    blockOf (exec (.wr 0x190#10 0x55#8) (around idleBlock [])) = some idleBlock := by decide +kernel

/-- A sample stored while FAULT = 1, at the address of pixel (22, 15). -/
theorem test_wr_faulted :
    (blockOf (exec (.wr 0x16F#10 0x5A#8) (around faultedBlock []))).map (fun b => (b.raster[15][22], b.fault)) =
      some (0x5A#8, true) := by decide +kernel

/-! ### Host assembly (R77, R78; V 3) -/

/-- R78's example. -/
theorem test_dims_words :
    assemble [⟨none, some (.dims 23 16), none⟩] =
      some [.xact24 0x118017#24, .xact24 0x118100#24, .xact24 0x118210#24, .xact24 0x118300#24] := by decide

/-- V P2 lines 1 and 3, as text. -/
theorem test_text :
    (parseProgram ["setpix 3, 1, 0xFF".toList, "go: frame ; MASK 01".toList]).bind assemble =
      some [.xact24 0x101AFF#24, .xact24 0x118403#24] := by decide

theorem test_text_names :
    (parseLine "rd OUT+40".toList).bind Line.accesses = some [.rd 0x1B8#10] ∧
    (parseLine "wr CMD, 0x04".toList).bind Line.accesses = some [.wr 0x184#10 0x04#8] ∧
    parseLine "wr CMD".toList = none := by decide

theorem test_hexText :
    xactText 0x118403#24 = "118403".toList ∧ parseXact "018500".toList = some (.xact24 0x018500#24) := by decide

/-! ### Witnesses: states and operands that meet each obligation's hypotheses -/

theorem witness_Cmd8MapIsItsFourBytes :
    ¬ isCommand 0x00#8 ∧ ¬ isCommand 0x04#8 ∧ ¬ isCommand 0x7F#8 ∧ ¬ isCommand 0x81#8 ∧ ¬ isCommand 0xFF#8 := by decide

theorem witness_Xact24MapIsItsTwoRows :
    spellsNoAccess 0x200000#24 ∧ spellsNoAccess 0x140000#24 ∧ spellsNoAccess 0x000001#24 ∧
    (0x13FFFF#24 &&& 0xFC0000#24 = 0x100000#24) ∧ (0x03FF00#24 &&& 0xFC00FF#24 = 0x000000#24) := by decide

theorem witness_DecodeAndEncodeAgree : decode (.xact24 0x13FFFF#24) = .ok (.wr 0x3FF#10 0xFF#8) := by decide

theorem witness_StepRunsDecodedInstruction :
    (around idleBlock [.access (.cmd8 0x01#8)]).pending = .access (.cmd8 0x01#8) :: [] ∧
    decode (.cmd8 0x01#8) = .ok .pack := by decide

theorem witness_IdleStepHoldsState : State.reset.pending = [] := by decide

theorem witness_PowerOnValues : (around faultedBlock [.powerOn]).pending = HostEvent.powerOn :: [] := by decide

theorem witness_StepStopsExactlyOnNoAccess :
    (around idleBlock [.access (.xact24 0x000001#24)]).pending = .access (.xact24 0x000001#24) :: [] ∧
    spellsNoAccess 0x000001#24 := by decide

/-- The clauses of ReadAnswersTheMap at the ends of their ranges. -/
theorem witness_ReadAnswersTheMap :
    (0x000#10).toNat = (0 : Fin 16).val * 23 + (0 : Fin 23).val ∧
    (0x16F#10).toNat = (15 : Fin 16).val * 23 + (22 : Fin 23).val ∧
    (0x188#10).toNat = 0x188 + (0 : Fin 4).val ∧ (0x18B#10).toNat = 0x188 + (3 : Fin 4).val ∧
    (0x18C#10).toNat = 0x18C + (0 : Fin 4).val ∧ (0x18F#10).toNat = 0x18C + (3 : Fin 4).val ∧
    (0x190#10).toNat = 0x190 + (0 : Fin 41).val ∧ (0x1B8#10).toNat = 0x190 + (40 : Fin 41).val ∧
    (0x1C0#10).toNat = 0x1C0 + 5 * (0 : Fin 8).val + (0 : Fin 5).val ∧
    (0x1E7#10).toNat = 0x1C0 + 5 * (7 : Fin 8).val + (4 : Fin 5).val ∧
    (0x200#10).toNat = 0x200 + 5 * (0 : Fin 8).val + (0 : Fin 5).val ∧
    (0x227#10).toNat = 0x200 + 5 * (7 : Fin 8).val + (4 : Fin 5).val ∧
    (∀ a ∈ [0x170#10, 0x17F#10, 0x1B9#10, 0x1BF#10, 0x1E8#10, 0x1FF#10, 0x228#10, 0x3FF#10],
      (0x170 ≤ a.toNat ∧ a.toNat ≤ 0x17F) ∨ (0x1B9 ≤ a.toNat ∧ a.toNat ≤ 0x1BF) ∨
        (0x1E8 ≤ a.toNat ∧ a.toNat ≤ 0x1FF) ∨ 0x228 ≤ a.toNat) := by decide

/-- The clauses of WriteFollowsTheMap at the ends of their ranges. -/
theorem witness_WriteFollowsTheMap :
    (0x000#10).toNat = (0 : Fin 16).val * 23 + (0 : Fin 23).val ∧
    (0x16F#10).toNat = (15 : Fin 16).val * 23 + (22 : Fin 23).val ∧
    (∀ a ∈ [0x170#10, 0x17F#10, 0x185#10, 0x3FF#10],
      (0x170 ≤ a.toNat ∧ a.toNat ≤ 0x17F) ∨ 0x185 ≤ a.toNat) := by decide

theorem witness_ReadAfterWrite :
    (0x16F#10 ≠ 0x184#10 ∧ isStorage 0x16F#10) ∧ (0x183#10 ≠ 0x184#10 ∧ isStorage 0x183#10) ∧
    (0x185#10 ≠ 0x184#10 ∧ ¬ isStorage 0x185#10) ∧ (0x170#10 ≠ 0x184#10 ∧ ¬ isStorage 0x170#10) := by decide

theorem witness_CmdWriteDispatches :
    (around faultedBlock []).block.fault = true ∧ (0x01#8 ≠ 0x80#8) ∧ (around idleBlock []).block.fault = false ∧
    ¬ isCommand 0x04#8 := by decide

theorem witness_PackSetsEveryLocalBit :
    (around idleBlock []).block.ready ∧
    ((22 : Fin 23).val = 6 * ((7 : Fin 8).val % 4) + (4 : Fin 5).val ∧
      (15 : Fin 16).val = 8 * ((7 : Fin 8).val / 4) + (7 : Fin 8).val ∧
      (39 : Fin 40).val = (7 : Fin 8).val * 5 + (4 : Fin 5).val) := by decide

theorem witness_GeometryMismatchIsPrecise :
    (around { idleBlock with rw := 24#16 } []).block.fault = false ∧
    ((around { idleBlock with rw := 24#16 } []).block.rw ≠ 23#16 ∨
      (around { idleBlock with rw := 24#16 } []).block.rh ≠ 16#16) := by decide

theorem witness_OnePixelSetsOneBit :
    inBlock 22 ∧ (7 : Fin 8).val = (15 : Fin 16).val / 8 * 4 + (22 : Fin 23).val / 6 ∧
    (39 : Fin 40).val = (15 : Fin 16).val % 8 * 5 + (22 : Fin 23).val % 6 ∧
    (rasterOf fun _ _ => false)[(15 : Fin 16)][(22 : Fin 23)] ≠ 0x00#8 := by decide +kernel

theorem witness_PackSeesOnlyInBlockZeros :
    (around idleBlock []).block.ready ∧ (around { idleBlock with raster := onePixel 5 0 } []).block.ready ∧
    (∀ (y : Fin 16) (x : Fin 23), inBlock x →
      (idleBlock.raster[y][x] = 0x00#8 ↔ (onePixel 5 0)[y][x] = 0x00#8)) := by decide +kernel

theorem witness_PackedFieldIsItsRows : (around idleBlock []).block.ready := by decide

/-- For EncodeMakesTheChangeMask, EncodeEmitsTheRecord, EncodeUpdatesPreviousAndCounts and the first clause of
CurEqualsPrevUntilNextPack; with PREV_VALID = 1 and with PREV_VALID = 0. -/
theorem witness_Encode :
    ((around freshBlock []).block.fault = false ∧ (around freshBlock []).block.curValid = true ∧
      (around freshBlock []).block.prevValid = true) ∧
    ((around { freshBlock with prevValid := false } []).block.fault = false ∧
      (around { freshBlock with prevValid := false } []).block.curValid = true ∧
      (around { freshBlock with prevValid := false } []).block.prevValid = false) := by decide

theorem witness_EncodeEmitsTheRecord_selected :
    (changeMask (!freshBlock.prevValid) freshBlock.cur freshBlock.prev).getLsbD (2 : Fin 8).val = true ∧
    (10 : Fin 41).val = recordOffset 0xFF#8 1 + (4 : Fin 5).val := by decide

theorem witness_EncodeWithoutFreshFrameFaults :
    (around idleBlock []).block.fault = false ∧ (around idleBlock []).block.curValid = false := by decide

theorem witness_UnspecifiedPrevNeverLeaks :
    (around idleBlock []).block.prevValid = false ∧ (∀ a, Instr.rd 0x1C0#10 = .rd a → ¬ isPrev a) ∧
    (∀ a, Instr.frame = .rd a → ¬ isPrev a) := by
  refine ⟨by decide, ?_, ?_⟩
  · intro a h
    cases h
    decide
  · intro a h
    cases h

theorem witness_UnspecifiedCurNeverLeaks :
    (around idleBlock []).block.curValid = false ∧ (∀ a, Instr.rd 0x200#10 = .rd a → ¬ isCur a) ∧
    (∀ a, Instr.encode = .rd a → ¬ isCur a) := by
  refine ⟨by decide, ?_, ?_⟩
  · intro a h
    cases h
    decide
  · intro a h
    cases h

theorem witness_FrameIsPackThenEncode :
    (around idleBlock []).block.ready ∧
    ((around { idleBlock with rh := 15#16 } []).block.fault = false ∧
      ((around { idleBlock with rh := 15#16 } []).block.rw ≠ 23#16 ∨
        (around { idleBlock with rh := 15#16 } []).block.rh ≠ 16#16)) := by decide

theorem witness_IllegalByteFaults :
    ¬ isCommand 0x00#8 ∧ (around idleBlock []).block.fault = false ∧ (around idleBlock []).block.read 0x185#10 = 0x00#8 ∧
    (around faultedBlock []).block.fault = true ∧
    (around idleBlock [.access (.cmd8 0x00#8)]).pending = .access (.cmd8 0x00#8) :: [] := by decide

theorem witness_FaultIsSticky :
    (around faultedBlock []).block.fault = true ∧ (0x81#8 ≠ 0x80#8) ∧ (0x000#10 ≠ 0x184#10) ∧ isStorage 0x000#10 := by
  decide

/-- Both clauses: a faulted state that an ignored byte does not lead out of, and the two events that do. -/
theorem witness_OnlySrstOrPowerOnEndsFault :
    ((∃ t, step (around faultedBlock [.access (.cmd8 0x01#8)]) = .next t) ∧
      (around faultedBlock [.access (.cmd8 0x01#8)]).block.fault = true ∧
      ¬ (around faultedBlock [.access (.cmd8 0x01#8)]).endsFault) ∧
    (around faultedBlock [.access (.cmd8 0x80#8)]).endsFault ∧
    (around faultedBlock [.access (.xact24 0x118480#24)]).endsFault ∧
    (around faultedBlock [.powerOn]).endsFault := by
  refine ⟨⟨⟨_, rfl⟩, rfl, ?_⟩, ⟨[], .inr ⟨_, .srst, rfl, by decide, by decide⟩⟩,
    ⟨[], .inr ⟨_, .wr 0x184#10 0x80#8, rfl, by decide, by decide⟩⟩, ⟨[], .inl rfl⟩⟩
  rintro ⟨rest, h | ⟨w, i, h, hd, hs⟩⟩
  · cases h
  · cases h
    simp only [decode, decodeCmd8, if_true, Decoded.ok.injEq] at hd
    subst hd
    revert hs
    decide

theorem witness_FaultPriority :
    ((around faultedBlock []).block.fault = true ∧ (0x04#8 ≠ 0x80#8)) ∧ (around idleBlock []).block.fault = false ∧ ¬ isCommand 0x83#8 ∧
    ((0x03#8 = 0x01#8 ∨ 0x03#8 = 0x03#8) ∧ (around { idleBlock with rw := 24#16 } []).block.rw ≠ 23#16) ∧
    (0x02#8 = 0x02#8 ∧ (around idleBlock []).block.curValid = false) := by decide

theorem witness_WhoWritesWhat :
    commandByte .pack = some 0x01#8 ∧ commandByte (.wr 0x184#10 0x03#8) = some 0x03#8 ∧
    commandByte (.wr 0x183#10 0x03#8) = none ∧ commandByte (.rd 0x184#10) = none ∧
    asksRecord .pack = false ∧ startsSession .pack = false ∧ ¬ isStorage 0x184#10 ∧ isStorage 0x183#10 := by decide

theorem witness_CommandsLeaveOtherAddresses :
    (¬ isReport 0x184#10 ∧ ¬ isCur 0x184#10 ∧ ¬ isPrev 0x184#10) ∧ (0x1B8#10 ≠ 0x185#10 ∧ ¬ isCur 0x1B8#10) ∧
    (¬ isReport 0x1B9#10 ∧ ¬ isPrev 0x1B9#10 ∧ ¬ isReport 0x1C0#10) := by decide

theorem witness_CountersMoveTogether : ∃ t, step (around idleBlock [.access (.cmd8 0x03#8)]) = .next t := ⟨_, rfl⟩

theorem witness_CurEqualsPrevUntilNextPack :
    (around idleBlock []).block.ready ∧ (around idleBlock []).block.cur = (around idleBlock []).block.prev ∧
    (commandByte .encode ≠ some 0x01#8 ∧ commandByte .encode ≠ some 0x03#8) := by decide

/-- A state that meets the invariant, and a step of it. -/
theorem witness_StepKeepsInvariant :
    (around idleBlock [.access (.cmd8 0x03#8)]).Inv ∧ ∃ t, step (around idleBlock [.access (.cmd8 0x03#8)]) = .next t :=
  ⟨⟨by decide, by decide, by decide, by decide, by decide⟩, ⟨_, rfl⟩⟩

theorem witness_RepeatedFrameIsOneByte : (around idleBlock []).block.ready := by decide

theorem witness_OneChangedPixelSelectsItsBlock :
    (around idleBlock []).block.ready ∧ inBlock 22 ∧ (7 : Fin 8).val = (15 : Fin 16).val / 8 * 4 + (22 : Fin 23).val / 6 ∧
    ¬ ((around idleBlock []).block.raster[(15 : Fin 16)][(22 : Fin 23)] = 0x00#8 ↔ 0x00#8 = 0x00#8) := by decide +kernel

theorem witness_StreamRoundTrip :
    ∀ f ∈ [(⟨23#16, 16#16, onePixel 0 0⟩ : Presented), ⟨23#16, 16#16, onePixel 22 15⟩], f.accepted := by
  intro f hf
  simp only [List.mem_cons, List.not_mem_nil, or_false] at hf
  rcases hf with rfl | rfl <;> exact ⟨rfl, rfl⟩

theorem witness_InputPseudosRun :
    (Stmt.dims 0xFFFF 0).wellFormed = true ∧ (Stmt.setpix (22 : Fin 23).val (15 : Fin 16).val 0xFF).wellFormed = true ∧
    (Stmt.fill (.reg .raster 0) 368 0xFF).wellFormed = true := by decide

theorem witness_ReportPseudosRun : (around { idleBlock with outLen := 41#8 } []).block.outLen.toNat ≤ 41 := by decide

end Sys2Proof.Tests
end

section
/-! ## Which operation of the block an instruction runs

Every claim about an instruction's effect on the block is one case split over `instrOp`, with a motive on the
operation. -/

namespace Sys2Proof.Machine

/-- The operation an instruction runs on a block, chosen by FAULT and the instruction alone (42_sequencing.md R130,
60_exceptions.md R157). It is tied to the model by `blockAfter_eq_instrOp`. -/
def instrOp (fault : Bool) (i : Instr) : Block → Block :=
  match commandByte i with
  | none => blockAfter i
  | some v =>
    if v = 0x80#8 then Block.sessionReset
    else if fault then id
    else if v = 0x01#8 then Block.pack
    else if v = 0x02#8 then Block.encode
    else if v = 0x03#8 then Block.packThenEncode
    else Block.illegal

/-- What an instruction does to a block is the operation chosen by the block's FAULT. -/
theorem blockAfter_eq_instrOp (i : Instr) {b : Block} {fault : Bool} (h : b.fault = fault) :
    blockAfter i b = instrOp fault i b := by
  subst h
  unfold instrOp
  cases hc : commandByte i with
  | none => rfl
  | some v =>
    rw [blockAfter_of_command hc]
    unfold Block.command
    cases b.fault
    · simp only [Bool.false_eq_true, if_false]
      split_ifs <;> simp_all
    · simp only [if_true]
      split_ifs <;> rfl

/-- The cases of the operation an instruction runs: a data write or a read, a command ignored while FAULT = 1, SRST in
every state, and PACK, ENCODE, FRAME and an illegal byte while FAULT = 0. -/
theorem instrOp_cases {motive : (Block → Block) → Prop} (fault : Bool) (i : Instr)
    (data : commandByte i = none → motive (blockAfter i))
    (ignored : fault = true → motive id)
    (srst : commandByte i = some 0x80#8 → motive Block.sessionReset)
    (pack : fault = false → commandByte i = some 0x01#8 → motive Block.pack)
    (encode : fault = false → commandByte i = some 0x02#8 → motive Block.encode)
    (frame : fault = false → commandByte i = some 0x03#8 → motive Block.packThenEncode)
    (illegal : fault = false → (∀ v, commandByte i = some v → ¬ isCommand v) → motive Block.illegal) :
    motive (instrOp fault i) := by
  unfold instrOp
  cases hc : commandByte i with
  | none => exact data hc
  | some v =>
    simp only
    split_ifs with h80 hf h1 h2 h3
    · exact srst (h80 ▸ hc)
    · exact ignored hf
    · exact pack (Bool.eq_false_iff.mpr hf) (h1 ▸ hc)
    · exact encode (Bool.eq_false_iff.mpr hf) (h2 ▸ hc)
    · exact frame (Bool.eq_false_iff.mpr hf) (h3 ▸ hc)
    · refine illegal (Bool.eq_false_iff.mpr hf) fun w hw => ?_
      obtain rfl : v = w := Option.some.inj (hc.symm.trans hw)
      simp only [isCommand, h1, h2, h3, h80, or_self, not_false_eq_true]

end Sys2Proof.Machine
end

section
/-! ## What PACK, ENCODE and FRAME leave alone, element by element -/

namespace Sys2Proof.Machine

variable (b : Block)

/-! PACK -/

@[simp] theorem Block.pack_raster : b.pack.raster = b.raster := by rw [pack_leaves]
@[simp] theorem Block.pack_rw : b.pack.rw = b.rw := by rw [pack_leaves]
@[simp] theorem Block.pack_rh : b.pack.rh = b.rh := by rw [pack_leaves]
@[simp] theorem Block.pack_prev : b.pack.prev = b.prev := by rw [pack_leaves]
@[simp] theorem Block.pack_prevValid : b.pack.prevValid = b.prevValid := by rw [pack_leaves]
@[simp] theorem Block.pack_mask : b.pack.mask = b.mask := by rw [pack_leaves]
@[simp] theorem Block.pack_out : b.pack.out = b.out := by rw [pack_leaves]
@[simp] theorem Block.pack_outLen : b.pack.outLen = b.outLen := by rw [pack_leaves]
@[simp] theorem Block.pack_fcount : b.pack.fcount = b.fcount := by rw [pack_leaves]
@[simp] theorem Block.pack_bcount : b.pack.bcount = b.bcount := by rw [pack_leaves]

/-! ENCODE -/

@[simp] theorem Block.encode_raster : b.encode.raster = b.raster := by rw [encode_leaves]
@[simp] theorem Block.encode_rw : b.encode.rw = b.rw := by rw [encode_leaves]
@[simp] theorem Block.encode_rh : b.encode.rh = b.rh := by rw [encode_leaves]
@[simp] theorem Block.encode_cur : b.encode.cur = b.cur := by rw [encode_leaves]

/-! FRAME -/

/-- FRAME is PACK, then ENCODE or nothing: what both keep, FRAME keeps. -/
theorem packThenEncode_cases {motive : Block → Prop} (packed : motive b.pack) (encoded : motive b.pack.encode) :
    motive b.packThenEncode := by
  unfold Block.packThenEncode
  split
  · exact packed
  · exact encoded

@[simp] theorem Block.packThenEncode_raster : b.packThenEncode.raster = b.raster := by
  apply packThenEncode_cases (motive := fun c => c.raster = b.raster) <;> simp

@[simp] theorem Block.packThenEncode_rw : b.packThenEncode.rw = b.rw := by
  apply packThenEncode_cases (motive := fun c => c.rw = b.rw) <;> simp

@[simp] theorem Block.packThenEncode_rh : b.packThenEncode.rh = b.rh := by
  apply packThenEncode_cases (motive := fun c => c.rh = b.rh) <;> simp

/-- FRAME on any geometry PACK does not accept is PACK alone (42_sequencing.md R132). -/
theorem packThenEncode_of_mismatch (h : b.rw ≠ 23#16 ∨ b.rh ≠ 16#16) : b.packThenEncode = b.pack := by
  simp [Block.packThenEncode, b.pack_of_mismatch h]

/-- The geometry is the one PACK accepts, or one of RW and RH is wrong (40_packer.md R90). -/
theorem geometry_ok_or_mismatch : (b.rw = 23#16 ∧ b.rh = 16#16) ∨ (b.rw ≠ 23#16 ∨ b.rh ≠ 16#16) := by
  tauto

/-! Groups of elements -/

/-- The two blocks hold the same input: RASTER, RW and RH (10_state.md R22–R24). -/
structure Block.SameInput (b c : Block) : Prop where
  raster : c.raster = b.raster
  rw : c.rw = b.rw
  rh : c.rh = b.rh

/-- The two blocks hold the same session: PREV_VALID, the record and the counters (10_state.md R28–R33). -/
structure Block.SameSession (b c : Block) : Prop where
  prevValid : c.prevValid = b.prevValid
  mask : c.mask = b.mask
  out : c.out = b.out
  outLen : c.outLen = b.outLen
  fcount : c.fcount = b.fcount
  bcount : c.bcount = b.bcount

theorem pack_sameInput : b.SameInput b.pack := ⟨by simp, by simp, by simp⟩

theorem encode_sameInput : b.SameInput b.encode := ⟨by simp, by simp, by simp⟩

theorem packThenEncode_sameInput : b.SameInput b.packThenEncode := ⟨by simp, by simp, by simp⟩

theorem pack_sameSession : b.SameSession b.pack := ⟨by simp, by simp, by simp, by simp, by simp, by simp⟩

end Sys2Proof.Machine
end

section
/-! ## What a read depends on (20_memory.md R51, R56) -/

namespace Sys2Proof.Machine

/-- Two blocks answer alike at an address when they agree on the elements the address can name. -/
theorem read_congr {b c : Block} {a : Addr} (input : b.SameInput c)
    (status : a = 0x185#10 → c.status = b.status)
    (report : isReport a → a ≠ 0x185#10 → b.SameSession c)
    (cur : isCur a → c.cur = b.cur) (prev : isPrev a → c.prev = b.prev) : c.read a = b.read a := by
  have place := region_holds a
  have hne : a.toNat ≠ 0x185 → a ≠ 0x185#10 := fun h e => h (by rw [e]; rfl)
  unfold Block.read
  cases hr : region a <;> simp only [hr, Region.holds] at place ⊢
  case raster => rw [input.raster]
  case rwLo => rw [input.rw]
  case rwHi => rw [input.rw]
  case rhLo => rw [input.rh]
  case rhHi => rw [input.rh]
  case status => exact status (BitVec.eq_of_toNat_eq place)
  case mask => exact (report (by omega) (hne (by omega))).mask
  case outLen => exact (report (by omega) (hne (by omega))).outLen
  case fcount => rw [(report (by omega) (hne (by omega))).fcount]
  case bcount => rw [(report (by omega) (hne (by omega))).bcount]
  case out => rw [(report (by omega) (hne (by omega))).out]
  case cur => rw [cur (by omega)]
  case prev => rw [prev (by omega)]

/-- Outside STATUS to OUT, RASTER, RW, RH and the two windows are all there is to see. -/
theorem read_congr_of_not_report {b c : Block} {a : Addr} (input : b.SameInput c) (h : ¬ isReport a)
    (cur : isCur a → c.cur = b.cur) (prev : isPrev a → c.prev = b.prev) : c.read a = b.read a :=
  read_congr input (fun ha => absurd (by rw [ha]; decide) h) (fun hr => absurd hr h) cur prev

/-- PACK changes STATUS and the CUR window. -/
theorem pack_read (b : Block) {a : Addr} (hs : a ≠ 0x185#10) (hc : ¬ isCur a) : b.pack.read a = b.read a :=
  read_congr (pack_sameInput b) (fun ha => absurd ha hs) (fun _ _ => pack_sameSession b) (fun ha => absurd ha hc)
    (fun _ => b.pack_prev)

/-- ENCODE changes STATUS to OUT and the PREV window. -/
theorem encode_read (b : Block) {a : Addr} (hr : ¬ isReport a) (hp : ¬ isPrev a) : b.encode.read a = b.read a :=
  read_congr_of_not_report (encode_sameInput b) hr (fun _ => b.encode_cur) (fun ha => absurd ha hp)

/-- FRAME changes STATUS to OUT and both windows. -/
theorem packThenEncode_read (b : Block) {a : Addr} (hr : ¬ isReport a) (hc : ¬ isCur a) (hp : ¬ isPrev a) :
    b.packThenEncode.read a = b.read a :=
  read_congr_of_not_report (packThenEncode_sameInput b) hr (fun ha => absurd ha hc) (fun ha => absurd ha hp)

/-- SRST changes STATUS to OUT. -/
theorem sessionReset_read (b : Block) {a : Addr} (hr : ¬ isReport a) : b.sessionReset.read a = b.read a :=
  read_congr_of_not_report ⟨rfl, rfl, rfl⟩ hr (fun _ => rfl) (fun _ => rfl)

/-- A command behind the FAULT guard leaves an address alone where the command itself does. -/
theorem unlessFaulted_read {f : Block → Block} {b : Block} {a : Addr} (h : (f b).read a = b.read a) :
    (unlessFaulted f b).read a = b.read a := by
  unfold unlessFaulted
  split
  · rfl
  · exact h

/-- STATUS is read at its address. -/
@[simp] theorem read_statusAddr (b : Block) : b.read 0x185#10 = b.status := rfl

/-! The bits of STATUS (10_state.md R34) -/

theorem status_bit_fault (b : Block) : b.status.getLsbD 0 = b.fault := by simp [Block.status]

theorem status_bit_err (b : Block) (k : Fin 3) : b.status.getLsbD (1 + k.val) = b.err.getLsbD k.val := by
  fin_cases k <;> simp [Block.status]

theorem status_bit_prevValid (b : Block) : b.status.getLsbD 4 = b.prevValid := by simp [Block.status]

theorem status_bit_curValid (b : Block) : b.status.getLsbD 5 = b.curValid := by simp [Block.status]

theorem status_bit_six (b : Block) : b.status.getLsbD 6 = false := by simp [Block.status]

theorem status_bit_seven (b : Block) : b.status.getLsbD 7 = false := by simp [Block.status]

end Sys2Proof.Machine
end

section
/-! ## The invariant of the block (10_state.md R38) -/

namespace Sys2Proof.Machine

/-- A block with an empty record, nothing counted, no previous frame and no fault meets the invariant. -/
theorem inv_of_cleared {b : Block} (hp : b.prevValid = false) (ho : b.out = Vector.replicate 41 0x00#8)
    (hl : b.outLen = 0x00#8) (hf : b.fcount = 0#32) (hb : b.bcount = 0#32) (hfault : b.fault = false)
    (herr : b.err = 0#3) : b.Inv where
  len := .inl hl
  tail k _ := by simp [ho]
  fresh _ := ⟨hf, hb, hl⟩
  errs := ⟨fun _ => herr, fun h => by simp [hfault] at h⟩
  origin h := by simp [hp] at h

theorem inv_powerOn (n : Nat) : (Block.powerOn n).Inv := inv_of_cleared rfl rfl rfl rfl rfl rfl rfl

theorem inv_sessionReset (b : Block) : b.sessionReset.Inv := inv_of_cleared rfl rfl rfl rfl rfl rfl rfl

/-- Every cause has one of the codes 1, 2 and 3 (10_state.md R36). -/
theorem Cause.code_legal (c : Cause) : c.code = 1#3 ∨ c.code = 2#3 ∨ c.code = 3#3 := by
  cases c <;> simp [Cause.code]

/-- Taking a fault keeps the invariant. -/
theorem Block.Inv.raise {b : Block} (h : b.Inv) (c : Cause) : (b.raise c).Inv :=
  { h with errs := ⟨fun hf => by simp at hf, fun _ => c.code_legal⟩ }

/-- The invariant does not speak of RASTER, RW, RH, CUR and CUR_VALID. -/
theorem Block.Inv.setInput {b : Block} (h : b.Inv) (r : Raster) (w rh : Dim) (c : PackedFrame) (v : Bool) :
    ({ b with raster := r, rw := w, rh := rh, cur := c, curValid := v } : Block).Inv :=
  { h with }

theorem Block.Inv.pack {b : Block} (h : b.Inv) : b.pack.Inv := by
  obtain hg | hg := geometry_ok_or_mismatch b
  · rw [b.pack_of_ok hg]
    exact h.setInput ..
  · rw [b.pack_of_mismatch hg]
    exact (h.setInput b.raster b.rw b.rh b.cur false).raise .geometryMismatch

/-- The record ENCODE emits meets the invariant, whatever record stood there before (41_delta_encoder.md R115, R116). -/
theorem Block.Inv.encode {b : Block} (h : b.Inv) : b.encode.Inv := by
  cases hv : b.curValid
  · rw [b.encode_of_stale hv]
    exact h.raise .sequence
  · rw [b.encode_of_valid hv]
    exact {
      len := .inr ⟨recordOf_length_toNat .., by simp [recordOf]⟩
      tail := fun k hk => by
        have hlen : (recordOf (changeMask (!b.prevValid) b.cur b.prev) b.cur).length ≤ k.val := by
          rw [recordOf_length, ← recordOf_length_toNat]
          exact hk
        exact (bufferOf_getElem _ k.val k.isLt).trans (List.getD_eq_default _ _ hlen)
      fresh := fun hp => by simp at hp
      errs := h.errs
      origin := fun _ => rfl }

/-- Every instruction keeps the block's invariant. -/
theorem Block.Inv.blockAfter {b : Block} (h : b.Inv) (i : Instr) : (blockAfter i b).Inv := by
  rw [blockAfter_eq_instrOp i rfl]
  refine instrOp_cases (motive := fun f => (f b).Inv) b.fault i ?data ?ignored ?srst ?pack ?encode ?frame ?illegal
  case data =>
    intro hc
    rw [blockAfter_of_none hc]
    exact h.setInput ..
  case ignored => exact fun _ => h
  case srst => exact fun _ => inv_sessionReset b
  case pack => exact fun _ _ => h.pack
  case encode => exact fun _ _ => h.encode
  case frame => exact fun _ _ => packThenEncode_cases b h.pack h.pack.encode
  case illegal => exact fun _ _ => h.raise .illegalCommand

end Sys2Proof.Machine
end

section
/-! ## What the unspecified bytes of PREV and CUR reach (10_state.md R39)

Both claims compare an operation on a block with the same operation after one frame of the block is replaced: the
result differs in that frame alone, or not at all. -/

namespace Sys2Proof.Machine

/-- Replacing PREV by `p` reaches nothing but PREV while PREV_VALID stays 0, and nothing at all once it is 1. -/
def PrevHidden (b : Block) (p : PackedFrame) (f : Block → Block) : Prop :=
  (f { b with prev := p } = { f b with prev := p } ∧ (f b).prevValid = false) ∨
    (f { b with prev := p } = f b ∧ (f b).prevValid = true)

/-- Replacing CUR by `c` reaches nothing but CUR while CUR_VALID stays 0, or nothing at all. -/
def CurHidden (b : Block) (c : PackedFrame) (f : Block → Block) : Prop :=
  (f { b with cur := c } = { f b with cur := c } ∧ (f b).curValid = false) ∨ f { b with cur := c } = f b

/-- A data write or a read takes its effect from RASTER, RW and RH alone. -/
theorem blockAfter_of_none_congr {i : Instr} (h : commandByte i = none) {b c : Block} (input : b.SameInput c) :
    blockAfter i c =
      { c with raster := (blockAfter i b).raster, rw := (blockAfter i b).rw, rh := (blockAfter i b).rh } := by
  obtain ⟨hraster, hrw, hrh⟩ := input
  cases i with
  | wr a v =>
    simp only [commandByte, ite_eq_right_iff, reduceCtorEq, imp_false] at h
    simp only [blockAfter, Block.write]
    cases hr : region a with
    | cmd => exact absurd hr h
    | _ => simp only [← hraster, ← hrw, ← hrh]
  | rd a => simp only [blockAfter, ← hraster, ← hrw, ← hrh]
  | _ => cases h

/-! PREV -/

theorem prevHidden_data {i : Instr} (hc : commandByte i = none) (b : Block) (p : PackedFrame)
    (h : b.prevValid = false) : PrevHidden b p (blockAfter i) := by
  have hb := blockAfter_of_none hc b
  left
  constructor
  · rw [blockAfter_of_none_congr hc (b := b) (c := { b with prev := p }) ⟨rfl, rfl, rfl⟩]
    exact congrArg (fun c : Block => { c with prev := p }) hb.symm
  · rw [hb]
    exact h

theorem prevHidden_pack (b : Block) (p : PackedFrame) (h : b.prevValid = false) : PrevHidden b p Block.pack := by
  refine .inl ⟨?_, by simp [h]⟩
  obtain hg | hg := geometry_ok_or_mismatch b
  · rw [b.pack_of_ok hg, Block.pack_of_ok { b with prev := p } hg]
  · rw [b.pack_of_mismatch hg, Block.pack_of_mismatch { b with prev := p } hg]

/-- The first ENCODE of a session refreshes every block and does not look at PREV (41_delta_encoder.md R113). -/
theorem prevHidden_encode (b : Block) (p : PackedFrame) (h : b.prevValid = false) : PrevHidden b p Block.encode := by
  cases hv : b.curValid
  · rw [PrevHidden, b.encode_of_stale hv, Block.encode_of_stale { b with prev := p } hv]
    exact .inl ⟨rfl, h⟩
  · have hm : ∀ q : PackedFrame, changeMask (!b.prevValid) b.cur q = 0xFF#8 := fun q => by
      rw [h]
      exact changeMask_first b.cur q
    rw [PrevHidden, b.encode_fields hv _ (hm b.prev), Block.encode_fields { b with prev := p } hv _ (hm p)]
    exact .inr ⟨rfl, rfl⟩

theorem prevHidden_packThenEncode (b : Block) (p : PackedFrame) (h : b.prevValid = false) :
    PrevHidden b p Block.packThenEncode := by
  have hp : Block.pack { b with prev := p } = { b.pack with prev := p } := by
    simpa [PrevHidden, h] using prevHidden_pack b p h
  simp only [PrevHidden, Block.packThenEncode, hp]
  split
  · exact .inl ⟨rfl, by simp [h]⟩
  · exact prevHidden_encode b.pack p (by simp [h])

/-- While PREV_VALID = 0, no instruction lets PREV reach another element. -/
theorem prevHidden_blockAfter (i : Instr) (b : Block) (p : PackedFrame) (h : b.prevValid = false) :
    PrevHidden b p (blockAfter i) := by
  rw [PrevHidden, blockAfter_eq_instrOp i (b := b) rfl,
    blockAfter_eq_instrOp i (b := { b with prev := p }) (fault := b.fault) rfl]
  refine instrOp_cases (motive := PrevHidden b p) b.fault i ?data ?ignored ?srst ?pack ?encode ?frame ?illegal
  case data => exact fun hc => prevHidden_data hc b p h
  case ignored => exact fun _ => .inl ⟨rfl, h⟩
  case srst => exact fun _ => .inl ⟨rfl, rfl⟩
  case pack => exact fun _ _ => prevHidden_pack b p h
  case encode => exact fun _ _ => prevHidden_encode b p h
  case frame => exact fun _ _ => prevHidden_packThenEncode b p h
  case illegal => exact fun _ _ => .inl ⟨rfl, h⟩

/-! CUR -/

theorem curHidden_data {i : Instr} (hc : commandByte i = none) (b : Block) (c : PackedFrame)
    (h : b.curValid = false) : CurHidden b c (blockAfter i) := by
  have hb := blockAfter_of_none hc b
  left
  constructor
  · rw [blockAfter_of_none_congr hc (b := b) (c := { b with cur := c }) ⟨rfl, rfl, rfl⟩]
    exact congrArg (fun d : Block => { d with cur := c }) hb.symm
  · rw [hb]
    exact h

/-- PACK overwrites CUR, or leaves it alone and not valid (40_packer.md R98). -/
theorem curHidden_pack (b : Block) (c : PackedFrame) : CurHidden b c Block.pack := by
  obtain hg | hg := geometry_ok_or_mismatch b
  · right
    rw [b.pack_of_ok hg, Block.pack_of_ok { b with cur := c } hg]
  · left
    rw [b.pack_of_mismatch hg, Block.pack_of_mismatch { b with cur := c } hg]
    exact ⟨rfl, rfl⟩

/-- ENCODE without a fresh CUR takes the SEQUENCE fault and does not look at it (60_exceptions.md R153). -/
theorem curHidden_encode (b : Block) (c : PackedFrame) (h : b.curValid = false) : CurHidden b c Block.encode := by
  rw [CurHidden, b.encode_of_stale h, Block.encode_of_stale { b with cur := c } h]
  exact .inl ⟨rfl, h⟩

/-- FRAME overwrites CUR before it encodes it, or ends with PACK (42_sequencing.md R132). -/
theorem curHidden_packThenEncode (b : Block) (c : PackedFrame) (hf : b.fault = false) :
    CurHidden b c Block.packThenEncode := by
  obtain hg | hg := geometry_ok_or_mismatch b
  · right
    rw [packThenEncode_of_ready b ⟨hf, hg⟩ _ _ rfl rfl,
      packThenEncode_of_ready { b with cur := c } ⟨hf, hg⟩ _ _ rfl rfl]
    rfl
  · rw [CurHidden, packThenEncode_of_mismatch b hg, packThenEncode_of_mismatch { b with cur := c } hg]
    exact curHidden_pack b c

/-- While CUR_VALID = 0, no instruction lets CUR reach another element. -/
theorem curHidden_blockAfter (i : Instr) (b : Block) (c : PackedFrame) (h : b.curValid = false) :
    CurHidden b c (blockAfter i) := by
  rw [CurHidden, blockAfter_eq_instrOp i (b := b) rfl,
    blockAfter_eq_instrOp i (b := { b with cur := c }) (fault := b.fault) rfl]
  refine instrOp_cases (motive := CurHidden b c) b.fault i ?data ?ignored ?srst ?pack ?encode ?frame ?illegal
  case data => exact fun hc => curHidden_data hc b c h
  case ignored => exact fun _ => .inl ⟨rfl, h⟩
  case srst => exact fun _ => .inl ⟨rfl, rfl⟩
  case pack => exact fun _ _ => curHidden_pack b c
  case encode => exact fun _ _ => curHidden_encode b c h
  case frame => exact fun hf _ => curHidden_packThenEncode b c hf
  case illegal => exact fun _ _ => .inl ⟨rfl, h⟩

/-! The port's answers -/

/-- A read outside the PREV window does not see PREV. -/
theorem repliesOf_setPrev {i : Instr} (h : ∀ a, i = .rd a → ¬ isPrev a) (b : Block) (p : PackedFrame) :
    repliesOf i { b with prev := p } = repliesOf i b := by
  cases i with
  | rd a =>
    have hr : Block.read { b with prev := p } a = b.read a :=
      read_congr ⟨rfl, rfl, rfl⟩ (fun _ => rfl) (fun _ _ => ⟨rfl, rfl, rfl, rfl, rfl, rfl⟩) (fun _ => rfl)
        (fun hp => absurd hp (h a rfl))
    simp [repliesOf, hr]
  | _ => rfl

/-- A read outside the CUR window does not see CUR. -/
theorem repliesOf_setCur {i : Instr} (h : ∀ a, i = .rd a → ¬ isCur a) (b : Block) (c : PackedFrame) :
    repliesOf i { b with cur := c } = repliesOf i b := by
  cases i with
  | rd a =>
    have hr : Block.read { b with cur := c } a = b.read a :=
      read_congr ⟨rfl, rfl, rfl⟩ (fun _ => rfl) (fun _ _ => ⟨rfl, rfl, rfl, rfl, rfl, rfl⟩)
        (fun hc => absurd hc (h a rfl)) (fun _ => rfl)
    simp [repliesOf, hr]
  | _ => rfl

end Sys2Proof.Machine
end

section
/-! ## Who writes what (10_state.md R40) -/

namespace Sys2Proof.Machine

/-- Only a write to a storage address changes RASTER, RW or RH. -/
theorem blockAfter_sameInput {i : Instr} (h : ∀ a v, i = .wr a v → ¬ isStorage a) (b : Block) :
    b.SameInput (blockAfter i b) := by
  rw [blockAfter_eq_instrOp i rfl]
  refine instrOp_cases (motive := fun f => b.SameInput (f b)) b.fault i ?data ?ignored ?srst ?pack ?encode ?frame
    ?illegal
  case data =>
    intro hc
    cases i with
    | wr a v =>
      have hne : a ≠ 0x184#10 := by
        rintro rfl
        cases hc
      rw [blockAfter, write_elsewhere b a v (h a v rfl) hne]
      exact ⟨rfl, rfl, rfl⟩
    | rd a => exact ⟨rfl, rfl, rfl⟩
    | _ => cases hc
  case ignored => exact fun _ => ⟨rfl, rfl, rfl⟩
  case srst => exact fun _ => ⟨rfl, rfl, rfl⟩
  case pack => exact fun _ _ => pack_sameInput b
  case encode => exact fun _ _ => encode_sameInput b
  case frame => exact fun _ _ => packThenEncode_sameInput b
  case illegal => exact fun _ _ => ⟨rfl, rfl, rfl⟩

/-- Only PACK and FRAME change CUR. -/
theorem blockAfter_cur {i : Instr} (h : presentsNoPack i) (b : Block) : (blockAfter i b).cur = b.cur := by
  obtain ⟨hpack, hframe⟩ := h
  rw [blockAfter_eq_instrOp i rfl]
  refine instrOp_cases (motive := fun f => (f b).cur = b.cur) b.fault i ?data ?ignored ?srst ?pack ?encode ?frame
    ?illegal
  case data =>
    intro hc
    rw [blockAfter_of_none hc]
  case ignored => exact fun _ => rfl
  case srst => exact fun _ => rfl
  case pack => exact fun _ hc => absurd hc hpack
  case encode => exact fun _ _ => b.encode_cur
  case frame => exact fun _ hc => absurd hc hframe
  case illegal => exact fun _ _ => rfl

/-- Only ENCODE and FRAME change PREV. -/
theorem blockAfter_prev {i : Instr} (hencode : commandByte i ≠ some 0x02#8) (hframe : commandByte i ≠ some 0x03#8)
    (b : Block) : (blockAfter i b).prev = b.prev := by
  rw [blockAfter_eq_instrOp i rfl]
  refine instrOp_cases (motive := fun f => (f b).prev = b.prev) b.fault i ?data ?ignored ?srst ?pack ?encode ?frame
    ?illegal
  case data =>
    intro hc
    rw [blockAfter_of_none hc]
  case ignored => exact fun _ => rfl
  case srst => exact fun _ => rfl
  case pack => exact fun _ _ => b.pack_prev
  case encode => exact fun _ hc => absurd hc hencode
  case frame => exact fun _ hc => absurd hc hframe
  case illegal => exact fun _ _ => rfl

/-- Only ENCODE, FRAME and SRST change the session's elements. -/
theorem blockAfter_sameSession {i : Instr} (hask : asksRecord i = false) (hstart : startsSession i = false)
    (b : Block) : b.SameSession (blockAfter i b) := by
  simp only [asksRecord, Bool.or_eq_false_iff, decide_eq_false_iff_not] at hask
  simp only [startsSession, decide_eq_false_iff_not] at hstart
  obtain ⟨hencode, hframe⟩ := hask
  rw [blockAfter_eq_instrOp i rfl]
  refine instrOp_cases (motive := fun f => b.SameSession (f b)) b.fault i ?data ?ignored ?srst ?pack ?encode ?frame
    ?illegal
  case data =>
    intro hc
    rw [blockAfter_of_none hc]
    exact ⟨rfl, rfl, rfl, rfl, rfl, rfl⟩
  case ignored => exact fun _ => ⟨rfl, rfl, rfl, rfl, rfl, rfl⟩
  case srst => exact fun hc => absurd hc hstart
  case pack => exact fun _ _ => pack_sameSession b
  case encode => exact fun _ hc => absurd hc hencode
  case frame => exact fun _ hc => absurd hc hframe
  case illegal => exact fun _ _ => ⟨rfl, rfl, rfl, rfl, rfl, rfl⟩

/-- Only a read adds a reply. -/
theorem repliesOf_of_not_rd {i : Instr} (h : ∀ a, i ≠ .rd a) (b : Block) : repliesOf i b = [] := by
  cases i with
  | rd a => exact absurd rfl (h a)
  | _ => rfl

/-- A successful ENCODE leaves CUR = PREV (10_state.md R38). -/
theorem encode_cur_eq_prev (b : Block) (h : b.curValid = true) : b.encode.cur = b.encode.prev := by
  rw [b.encode_of_valid h]
  rfl

/-- ENCODE, successful or not, keeps CUR = PREV. -/
theorem encode_keeps_cur_eq_prev (b : Block) (h : b.cur = b.prev) : b.encode.cur = b.encode.prev := by
  cases hv : b.curValid
  · rw [b.encode_of_stale hv]
    exact h
  · exact encode_cur_eq_prev b hv

/-- Every instruction that presents no PACK keeps CUR = PREV. -/
theorem blockAfter_keeps_cur_eq_prev {i : Instr} (hi : presentsNoPack i) (b : Block) (h : b.cur = b.prev) :
    (blockAfter i b).cur = (blockAfter i b).prev := by
  obtain ⟨hpack, hframe⟩ := hi
  rw [blockAfter_eq_instrOp i rfl]
  refine instrOp_cases (motive := fun f => (f b).cur = (f b).prev) b.fault i ?data ?ignored ?srst ?pack ?encode ?frame
    ?illegal
  case data =>
    intro hc
    rw [blockAfter_of_none hc]
    exact h
  case ignored => exact fun _ => h
  case srst => exact fun _ => h
  case pack => exact fun _ hc => absurd hc hpack
  case encode => exact fun _ _ => encode_keeps_cur_eq_prev b h
  case frame => exact fun _ hc => absurd hc hframe
  case illegal => exact fun _ _ => h

end Sys2Proof.Machine
end

section
/-! ## The obligations -/

namespace Sys2Proof.Machine

/-- Settles O41: each of the four kinds of step keeps the block's invariant; an undefined CMD8 byte is the write of the
byte to CMD. -/
theorem stepKeepsInvariant : Obligations.StepKeepsInvariant := by
  intro s t h hstep
  obtain ⟨-, rfl⟩ | ⟨rest, -, rfl⟩ | ⟨w, i, rest, -, -, rfl⟩ | ⟨op, rest, -, -, rfl⟩ := step_next_cases hstep
  · exact h
  · exact inv_powerOn _
  · exact Block.Inv.blockAfter h i
  · exact Block.Inv.blockAfter h (.wr 0x184#10 op)

/-- Settles O40: every power-on leaves a cleared block. -/
theorem resetMeetsInvariant : Obligations.ResetMeetsInvariant := inv_powerOn 0

/-- Settles O28, from what PREV reaches in the block and in the replies. -/
theorem unspecifiedPrevNeverLeaks : Obligations.UnspecifiedPrevNeverLeaks := by
  intro i s p hp hi
  refine ⟨_, exec_eq i s, ?_⟩
  rw [exec_eq, repliesOf_setPrev hi]
  obtain ⟨he, hv⟩ | ⟨he, hv⟩ := prevHidden_blockAfter i s.block p hp
  · exact .inl ⟨by rw [he], hv⟩
  · exact .inr ⟨by rw [he], hv⟩

/-- Settles O29, from what CUR reaches in the block and in the replies. -/
theorem unspecifiedCurNeverLeaks : Obligations.UnspecifiedCurNeverLeaks := by
  intro i s c hc hi
  refine ⟨_, exec_eq i s, ?_⟩
  rw [exec_eq, repliesOf_setCur hi]
  obtain ⟨he, hv⟩ | he := curHidden_blockAfter i s.block c hc
  · exact .inl ⟨by rw [he], hv⟩
  · exact .inr (by rw [he])

/-- Settles O36, one frame lemma per group of elements. -/
theorem whoWritesWhat : Obligations.WhoWritesWhat := by
  intro i s
  refine ⟨_, exec_eq i s, rfl, rfl, ?_, ?_, ?_, ?_, ?_, ?_⟩
  · intro h
    obtain ⟨hr, hw, hh⟩ := blockAfter_sameInput h s.block
    exact ⟨hr, hw, hh⟩
  · exact fun hpack hframe => blockAfter_cur ⟨hpack, hframe⟩ s.block
  · exact fun hencode hframe => blockAfter_prev hencode hframe s.block
  · intro hask hstart
    obtain ⟨hv, hm, ho, hl, hf, hb⟩ := blockAfter_sameSession hask hstart s.block
    exact ⟨hv, hm, ho, hl, hf, hb⟩
  · intro hc
    rw [blockAfter_of_none hc]
    exact ⟨rfl, rfl, rfl⟩
  · intro h
    simp [repliesOf_of_not_rd h]

/-- Settles O37: a command's frame, read through the address map. -/
theorem commandsLeaveOtherAddresses : Obligations.CommandsLeaveOtherAddresses := by
  intro s
  refine ⟨⟨_, exec_pack s, ?_⟩, ⟨_, exec_encode s, ?_⟩, ⟨_, exec_frame s, ?_⟩, ⟨_, exec_srst s, ?_⟩⟩
  · exact fun a hs hc => unlessFaulted_read (pack_read s.block hs hc)
  · exact fun a hr hp => unlessFaulted_read (encode_read s.block hr hp)
  · exact fun a hr hc hp => unlessFaulted_read (packThenEncode_read s.block hr hc hp)
  · exact fun a hr => sessionReset_read s.block hr

/-- Settles O39, by ENCODE and FRAME on a fresh frame and by what presents no PACK. -/
theorem curEqualsPrevUntilNextPack : Obligations.CurEqualsPrevUntilNextPack := by
  refine ⟨?_, ?_, ?_⟩
  · intro s hf hv
    refine ⟨_, exec_encode s, ?_⟩
    simpa [hf] using encode_cur_eq_prev s.block hv
  · intro s hready
    refine ⟨_, exec_frame s, ?_⟩
    simp only [unlessFaulted_of_clear _ _ hready.1, packThenEncode_of_ready s.block hready _ _ rfl rfl]
    rfl
  · exact fun i s hi h => ⟨_, exec_eq i s, blockAfter_keeps_cur_eq_prev hi s.block h⟩

/-- Settles O13: STATUS is assembled from its fields, and its address is neither storage nor CMD. -/
theorem statusFields : Obligations.StatusFields := by
  refine ⟨?_, ?_, ?_⟩
  · intro s v
    rw [exec_wr, write_elsewhere s.block _ v (by decide) (by decide)]
  · rfl
  · intro b
    rw [read_statusAddr]
    exact ⟨status_bit_fault b, status_bit_err b, status_bit_prevValid b, status_bit_curValid b, status_bit_six b,
      status_bit_seven b⟩

end Sys2Proof.Machine
end

section
/-! ## What a read answers, entry by entry of the address map (20_memory.md R51, R56) -/

namespace Sys2Proof.Machine

/-- An address whose region is known lies where that region says. -/
theorem holds_of_region_eq {a : Addr} {r : Region} (h : region a = r) : r.holds a := h ▸ region_holds a

/-- Two addresses of one region are the same, outside the reserved ones. -/
theorem eq_of_region_eq {a a' : Addr} (h : region a = region a') (hr : region a ≠ .reserved) : a = a' := by
  have place := region_holds a
  have place' := holds_of_region_eq h.symm
  cases hra : region a with
  | reserved => exact absurd hra hr
  | _ =>
    rw [hra] at place place'
    exact BitVec.eq_of_toNat_eq (place.trans place'.symm)

variable (b : Block) {a : Addr}

theorem read_raster {y : Fin 16} {x : Fin 23} (h : a.toNat = y.val * 23 + x.val) : b.read a = b.raster[y][x] := by
  simp only [Block.read, region_eq (r := .raster y x) h]

@[simp] theorem read_rwLo : b.read 0x180#10 = loByte b.rw := rfl

@[simp] theorem read_rwHi : b.read 0x181#10 = hiByte b.rw := rfl

@[simp] theorem read_rhLo : b.read 0x182#10 = loByte b.rh := rfl

@[simp] theorem read_rhHi : b.read 0x183#10 = hiByte b.rh := rfl

@[simp] theorem read_cmd : b.read 0x184#10 = 0x00#8 := rfl

@[simp] theorem read_mask : b.read 0x186#10 = b.mask := rfl

@[simp] theorem read_outLen : b.read 0x187#10 = b.outLen := rfl

theorem read_fcount {k : Fin 4} (h : a.toNat = 0x188 + k.val) : b.read a = countByte b.fcount k := by
  simp only [Block.read, region_eq (r := .fcount k) h]

theorem read_bcount {k : Fin 4} (h : a.toNat = 0x18C + k.val) : b.read a = countByte b.bcount k := by
  simp only [Block.read, region_eq (r := .bcount k) h]

theorem read_out {k : Fin 41} (h : a.toNat = 0x190 + k.val) : b.read a = b.out[k] := by
  simp only [Block.read, region_eq (r := .out k) h]

theorem read_cur {i : Fin 8} {j : Fin 5} (h : a.toNat = 0x1C0 + 5 * i.val + j.val) : b.read a = b.cur[i][j] := by
  simp only [Block.read, region_eq (r := .cur i j) h]

theorem read_prev {i : Fin 8} {j : Fin 5} (h : a.toNat = 0x200 + 5 * i.val + j.val) : b.read a = b.prev[i][j] := by
  simp only [Block.read, region_eq (r := .prev i j) h]

theorem read_reserved (h : Region.reserved.holds a) : b.read a = 0x00#8 := by
  simp only [Block.read, region_eq h]

/-- STATUS as the sum of its fields (10_state.md R34): the fields do not overlap. -/
theorem status_toNat : b.status.toNat =
    b.fault.toNat + 2 * b.err.toNat + 16 * b.prevValid.toNat + 32 * b.curValid.toNat := by
  unfold Block.status
  generalize b.fault = f, b.err = e, b.prevValid = p, b.curValid = c
  revert f e p c
  decide

/-- A block with another input answers alike at an address where the input holds the same byte. -/
theorem read_setInput (r : Raster) (w h : Dim)
    (raster : ∀ y x, region a = .raster y x → r[y][x] = b.raster[y][x])
    (rwLo : region a = .rwLo → loByte w = loByte b.rw) (rwHi : region a = .rwHi → hiByte w = hiByte b.rw)
    (rhLo : region a = .rhLo → loByte h = loByte b.rh) (rhHi : region a = .rhHi → hiByte h = hiByte b.rh) :
    Block.read { b with raster := r, rw := w, rh := h } a = b.read a := by
  unfold Block.read
  cases hr : region a with
  | raster y x => exact raster y x hr
  | rwLo => exact rwLo hr
  | rwHi => exact rwHi hr
  | rhLo => exact rhLo hr
  | rhHi => exact rhHi hr
  | _ => rfl

end Sys2Proof.Machine
end

section
/-! ## What a write to storage does, and to a later read (20_memory.md R57, R63) -/

namespace Sys2Proof.Machine

variable (b : Block) {a : Addr} (v : Byte)

theorem write_raster {y : Fin 16} {x : Fin 23} (h : a.toNat = y.val * 23 + x.val) :
    b.write a v = { b with raster := withSample b.raster y x v } := by
  simp only [Block.write, region_eq (r := .raster y x) h]

@[simp] theorem write_rwLo : b.write 0x180#10 v = { b with rw := withLo b.rw v } := rfl

@[simp] theorem write_rwHi : b.write 0x181#10 v = { b with rw := withHi b.rw v } := rfl

@[simp] theorem write_rhLo : b.write 0x182#10 v = { b with rh := withLo b.rh v } := rfl

@[simp] theorem write_rhHi : b.write 0x183#10 v = { b with rh := withHi b.rh v } := rfl

/-- The addresses of storage: a sample's, or a byte of RW or RH. -/
theorem storage_cases (h : isStorage a) :
    (∃ (y : Fin 16) (x : Fin 23), a.toNat = y.val * 23 + x.val) ∨
      a = 0x180#10 ∨ a = 0x181#10 ∨ a = 0x182#10 ∨ a = 0x183#10 := by
  obtain ⟨y, x, h⟩ | h | h | h | h := (isStorage_iff a).mp h
  · exact .inl ⟨y, x, holds_of_region_eq h⟩
  · exact .inr (.inl (BitVec.eq_of_toNat_eq (holds_of_region_eq h)))
  · exact .inr (.inr (.inl (BitVec.eq_of_toNat_eq (holds_of_region_eq h))))
  · exact .inr (.inr (.inr (.inl (BitVec.eq_of_toNat_eq (holds_of_region_eq h)))))
  · exact .inr (.inr (.inr (.inr (BitVec.eq_of_toNat_eq (holds_of_region_eq h)))))

/-- No address of storage is reserved (20_memory.md R51). -/
theorem region_of_storage (h : isStorage a) : region a ≠ .reserved := by
  intro hr
  have place := holds_of_region_eq hr
  simp only [Region.holds] at place
  omega

/-- A byte written to storage is read back. -/
theorem read_write_same (h : isStorage a) : (b.write a v).read a = v := by
  obtain ⟨y, x, ha⟩ | rfl | rfl | rfl | rfl := storage_cases h
  · rw [write_raster b v ha, read_raster _ ha, withSample_getElem, if_pos ⟨rfl, rfl⟩]
  · rw [write_rwLo, read_rwLo, loByte_withLo]
  · rw [write_rwHi, read_rwHi, hiByte_withHi]
  · rw [write_rhLo, read_rhLo, loByte_withLo]
  · rw [write_rhHi, read_rhHi, hiByte_withHi]

/-- A write to storage leaves what every other address reads: other samples, and the other half of RW and RH. -/
theorem read_write_of_ne (h : isStorage a) {a' : Addr} (hne : a' ≠ a) : (b.write a v).read a' = b.read a' := by
  have other : region a' ≠ region a := fun hr => hne (eq_of_region_eq hr.symm (region_of_storage h)).symm
  obtain ⟨y, x, ha⟩ | rfl | rfl | rfl | rfl := storage_cases h
  · rw [write_raster b v ha]
    refine read_setInput b _ _ _ (fun y' x' hr => ?_) (fun _ => rfl) (fun _ => rfl) (fun _ => rfl) (fun _ => rfl)
    rw [withSample_getElem, if_neg]
    rintro ⟨rfl, rfl⟩
    exact other (hr.trans (region_eq (r := .raster _ _) ha).symm)
  · exact read_setInput b _ _ _ (fun _ _ _ => rfl) (fun hr => absurd hr other)
      (fun _ => hiByte_withLo b.rw v) (fun _ => rfl) (fun _ => rfl)
  · exact read_setInput b _ _ _ (fun _ _ _ => rfl) (fun _ => loByte_withHi b.rw v)
      (fun hr => absurd hr other) (fun _ => rfl) (fun _ => rfl)
  · exact read_setInput b _ _ _ (fun _ _ _ => rfl) (fun _ => rfl) (fun _ => rfl)
      (fun hr => absurd hr other) (fun _ => hiByte_withLo b.rh v)
  · exact read_setInput b _ _ _ (fun _ _ _ => rfl) (fun _ => rfl) (fun _ => rfl)
      (fun _ => loByte_withHi b.rh v) (fun hr => absurd hr other)

end Sys2Proof.Machine
end

section
/-! ## The host's next event (20_memory.md R63) -/

namespace Sys2Proof.Machine

theorem nextEvent_cons {s : State} {e : HostEvent} {rest : List HostEvent} (h : s.pending = e :: rest) :
    s.nextEvent = some (e, { s with pending := rest }) := by
  simp only [State.nextEvent, h]

theorem step_cons {s : State} {e : HostEvent} {rest : List HostEvent} (h : s.pending = e :: rest) :
    step s = runEvent e { s with pending := rest } := by
  simp only [step, nextEvent_cons h]

theorem runWord_of_ok {w : HostWord} {i : Instr} (h : decode w = .ok i) (s : State) : runWord w s = exec i s := by
  simp only [runWord, h]

end Sys2Proof.Machine
end

section
/-! ## The obligations of the host port -/

namespace Sys2Proof.Machine

/-- Settles O12: the byte is `Block.read`, one lemma for each entry of the map. -/
theorem readAnswersTheMap : Obligations.ReadAnswersTheMap := by
  intro s a
  refine ⟨s.block.read a, fun _ => rfl, fun _ _ => read_raster s.block, ?rwLo, ?rwHi, ?rhLo, ?rhHi, ?cmd, ?status,
    ?mask, ?outLen, fun _ => read_fcount s.block, fun _ => read_bcount s.block, fun _ => read_out s.block,
    fun _ _ => read_cur s.block, fun _ _ => read_prev s.block, read_reserved s.block⟩
  case rwLo => exact fun h => h ▸ read_rwLo s.block
  case rwHi => exact fun h => h ▸ read_rwHi s.block
  case rhLo => exact fun h => h ▸ read_rhLo s.block
  case rhHi => exact fun h => h ▸ read_rhHi s.block
  case cmd => exact fun h => h ▸ read_cmd s.block
  case status => exact fun h => h ▸ status_toNat s.block
  case mask => exact fun h => h ▸ read_mask s.block
  case outLen => exact fun h => h ▸ read_outLen s.block

/-- Settles O14: the byte written is seen by the lemmas on `withSample`, `withLo` and `withHi`. -/
theorem writeFollowsTheMap : Obligations.WriteFollowsTheMap := by
  intro s a v
  refine ⟨s.block.write a v, exec_wr s a v, ?raster, ?rwLo, ?rwHi, ?rhLo, ?rhHi, ?cmd, ?elsewhere⟩
  case raster =>
    intro y x h
    rw [write_raster s.block v h]
    exact ⟨rfl, fun y' x' => withSample_getElem s.block.raster y y' x x' v⟩
  case rwLo =>
    rintro rfl
    exact ⟨rfl, loByte_withLo s.block.rw v, hiByte_withLo s.block.rw v⟩
  case rwHi =>
    rintro rfl
    exact ⟨rfl, hiByte_withHi s.block.rw v, loByte_withHi s.block.rw v⟩
  case rhLo =>
    rintro rfl
    exact ⟨rfl, loByte_withLo s.block.rh v, hiByte_withLo s.block.rh v⟩
  case rhHi =>
    rintro rfl
    exact ⟨rfl, hiByte_withHi s.block.rh v, loByte_withHi s.block.rh v⟩
  case cmd =>
    rintro rfl
    exact write_cmd s.block v
  case elsewhere =>
    intro h
    refine write_elsewhere s.block a v (by omega) ?_
    rintro rfl
    exact absurd h (by decide)

/-- Settles O15: a write to storage is read back and seen nowhere else, and a write elsewhere has no effect. -/
theorem readAfterWrite : Obligations.ReadAfterWrite := by
  intro s a v hcmd
  refine ⟨_, exec_wr s a v, read_write_same s.block v, fun a' ha' => ?_⟩
  by_cases hs : isStorage a
  · exact read_write_of_ne s.block v hs (ha'.resolve_right (not_not_intro hs))
  · rw [write_elsewhere s.block a v hs hcmd]

/-- Settles O6: the step takes the access from the list, and its word runs as the instruction it decodes to. -/
theorem stepRunsDecodedInstruction : Obligations.StepRunsDecodedInstruction := by
  intro s w rest i hp hd
  calc step s = runWord w { s with pending := rest } := step_cons hp
    _ = exec i { s with pending := rest } := runWord_of_ok hd _

end Sys2Proof.Machine
end

section
/-! ## The two rows of the XACT24 map (30_encoding.md R71, R74) -/

namespace Sys2Proof

namespace XWord

/-- The mask of the wr row keeps K and Z. -/
theorem make_and_wrMask (k : BitVec 4) (z : BitVec 2) (a : Addr) (d : Byte) :
    make k z a d &&& 0xFC0000#24 = make k z 0#10 0x00#8 := by
  apply BitVec.eq_of_getLsbD_eq
  intro i hi
  interval_cases i <;> simp [make]

/-- The mask of the rd row keeps K, Z and DATA. -/
theorem make_and_rdMask (k : BitVec 4) (z : BitVec 2) (a : Addr) (d : Byte) :
    make k z a d &&& 0xFC00FF#24 = make k z 0#10 d := by
  apply BitVec.eq_of_getLsbD_eq
  intro i hi
  interval_cases i <;> simp [make]

/-- Two words with the same fields are the same, and only those are. -/
theorem make_inj {k k' : BitVec 4} {z z' : BitVec 2} {a a' : Addr} {d d' : Byte} :
    make k z a d = make k' z' a' d' ↔ k = k' ∧ z = z' ∧ a = a' ∧ d = d' := by
  constructor
  · intro h
    exact ⟨by simpa using congrArg kind h, by simpa using congrArg zeros h, by simpa using congrArg addr h,
      by simpa using congrArg data h⟩
  · rintro ⟨rfl, rfl, rfl, rfl⟩
    rfl

/-- A word matches the wr row exactly when K is 0x1 and Z is 00. -/
theorem matches_wr_iff (w : XWord) : w &&& 0xFC0000#24 = 0x100000#24 ↔ kind w = 0x1#4 ∧ zeros w = 0#2 := by
  have row : 0x100000#24 = make 0x1#4 0#2 0#10 0x00#8 := rfl
  conv_lhs => rw [← make_fields w, make_and_wrMask, row, make_inj]
  simp

/-- A word matches the rd row exactly when K is 0x0, Z is 00 and DATA is 0x00. -/
theorem matches_rd_iff (w : XWord) :
    w &&& 0xFC00FF#24 = 0x000000#24 ↔ kind w = 0x0#4 ∧ zeros w = 0#2 ∧ data w = 0x00#8 := by
  have row : 0x000000#24 = make 0x0#4 0#2 0#10 0x00#8 := rfl
  conv_lhs => rw [← make_fields w, make_and_rdMask, row, make_inj]
  simp

end XWord

open Machine

variable {w : XWord}

theorem decode_of_wr (h : w &&& 0xFC0000#24 = 0x100000#24) :
    decode (.xact24 w) = .ok (.wr (XWord.addr w) (XWord.data w)) := by
  obtain ⟨hk, hz⟩ := (XWord.matches_wr_iff w).mp h
  simp [decode, decodeXact24, hk, hz]

theorem decode_of_rd (h : w &&& 0xFC00FF#24 = 0x000000#24) : decode (.xact24 w) = .ok (.rd (XWord.addr w)) := by
  obtain ⟨hk, hz, hd⟩ := (XWord.matches_rd_iff w).mp h
  simp [decode, decodeXact24, hk, hz, hd]

/-- A word that matches neither row is rejected by a name of its own. -/
theorem decode_of_noAccess (h : spellsNoAccess w) :
    decode (.xact24 w) = .rejected (.reservedBits w) ∨ decode (.xact24 w) = .rejected (.unknownKind w) ∨
      decode (.xact24 w) = .rejected (.readWithData w) := by
  obtain ⟨hwr, hrd⟩ := h
  rw [ne_eq, XWord.matches_wr_iff] at hwr
  rw [ne_eq, XWord.matches_rd_iff] at hrd
  unfold decode decodeXact24
  by_cases hz : XWord.zeros w = 0#2
  · have hk : XWord.kind w ≠ 0x1#4 := fun hk => hwr ⟨hk, hz⟩
    by_cases hk0 : XWord.kind w = 0x0#4
    · have hd : XWord.data w ≠ 0x00#8 := fun hd => hrd ⟨hk0, hz, hd⟩
      simp [hz, hk0, hd]
    · simp [hz, hk, hk0]
  · simp [hz]

/-- Every word matches one of the two rows or spells no access. -/
theorem xact24_cases (w : XWord) :
    w &&& 0xFC0000#24 = 0x100000#24 ∨ w &&& 0xFC00FF#24 = 0x000000#24 ∨ spellsNoAccess w := by
  tauto

/-- The instruction of an accepted word is the one of the row it matches. -/
theorem xact24_row_of_ok {i : Instr} (h : decode (.xact24 w) = .ok i) :
    (w &&& 0xFC0000#24 = 0x100000#24 ∧ i = .wr (XWord.addr w) (XWord.data w)) ∨
      (w &&& 0xFC00FF#24 = 0x000000#24 ∧ i = .rd (XWord.addr w)) := by
  obtain hw | hr | hn := xact24_cases w
  · rw [decode_of_wr hw, Decoded.ok.injEq] at h
    exact .inl ⟨hw, h.symm⟩
  · rw [decode_of_rd hr, Decoded.ok.injEq] at h
    exact .inr ⟨hr, h.symm⟩
  · obtain hd | hd | hd := decode_of_noAccess hn <;> rw [hd] at h <;> cases h

end Sys2Proof
end

section
/-! ## The CMD8 map (30_encoding.md R70, R73) -/

namespace Sys2Proof

open Machine

/-- A byte outside the opcode map is rejected. -/
theorem decode_of_undefined {op : Byte} (h : ¬ isCommand op) : decode (.cmd8 op) = .rejected (.illegalCommand op) := by
  simp only [isCommand, not_or] at h
  obtain ⟨hpack, hencode, hframe, hsrst⟩ := h
  simp [decode, decodeCmd8, hpack, hencode, hframe, hsrst]

/-- The instruction of an accepted byte is a command, and it is spelt by that byte. -/
theorem cmd8_of_ok {op : Byte} {i : Instr} (h : decode (.cmd8 op) = .ok i) : encode i = .cmd8 op := by
  by_cases hc : isCommand op
  · obtain rfl | rfl | rfl | rfl := hc <;> cases h <;> rfl
  · rw [decode_of_undefined hc] at h
    cases h

/-- Decoding undoes encoding. -/
theorem decode_encode (i : Instr) : decode (encode i) = .ok i := by
  cases i with
  | wr a d => simp [encode, decode, decodeXact24]
  | rd a => simp [encode, decode, decodeXact24]
  | _ => rfl

/-- An accepted word is the encoding of its instruction: no bit is dropped. -/
theorem encode_of_decode {w : HostWord} {i : Instr} (h : decode w = .ok i) : encode i = w := by
  cases w with
  | cmd8 op => exact cmd8_of_ok h
  | xact24 w =>
    have fields := XWord.make_fields w
    obtain ⟨hw, rfl⟩ | ⟨hr, rfl⟩ := xact24_row_of_ok h
    · obtain ⟨hk, hz⟩ := (XWord.matches_wr_iff w).mp hw
      rw [hk, hz] at fields
      rw [encode, fields]
    · obtain ⟨hk, hz, hd⟩ := (XWord.matches_rd_iff w).mp hr
      rw [hk, hz, hd] at fields
      rw [encode, fields]

/-- The decoder reads an instruction back from its word as a table gives it, by width and value (R76). -/
theorem decodeTableWord_encode (i : Instr) : decodeTableWord (encode i).bits (encode i).value = some i := by
  have width : (encode i).bits = 8 ∨ (encode i).bits = 24 := by cases i <;> simp [encode, HostWord.bits]
  rw [decodeTableWord, if_pos width, wordOfTable_value, decode_encode, Decoded.toOption]

end Sys2Proof
end

section
/-! ## What a word runs as (42_sequencing.md R130, R135) -/

namespace Sys2Proof.Machine

theorem step_withNextWord (s : State) (w : HostWord) : step (s.withNextWord w) = runWord w s :=
  step_cons (s := s.withNextWord w) rfl

/-- A byte outside the opcode map, written to CMD, is illegal unless the block is faulted. -/
theorem command_of_undefined {v : Byte} (h : ¬ isCommand v) (b : Block) :
    b.command v = unlessFaulted Block.illegal b := by
  simp only [isCommand, not_or] at h
  obtain ⟨hpack, hencode, hframe, hsrst⟩ := h
  simp [Block.command, unlessFaulted, hpack, hencode, hframe, hsrst]

/-- An instruction with a command byte runs that byte and nothing else. -/
theorem exec_of_command {i : Instr} {v : Byte} (h : commandByte i = some v) (s : State) :
    exec i s = .next { s with block := s.block.command v } := by
  have noReply : ∀ a, i ≠ .rd a := by
    rintro a rfl
    cases h
  rw [exec_eq, blockAfter_of_command h, repliesOf_of_not_rd noReply, List.append_nil]

/-- A CMD8 word runs its byte, legal or not. -/
theorem runWord_cmd8 (v : Byte) (s : State) : runWord (.cmd8 v) s = .next { s with block := s.block.command v } := by
  by_cases hc : isCommand v
  · obtain rfl | rfl | rfl | rfl := hc
    · exact exec_of_command (i := .pack) rfl s
    · exact exec_of_command (i := .encode) rfl s
    · exact exec_of_command (i := .frame) rfl s
    · exact exec_of_command (i := .srst) rfl s
  · rw [runWord, decode_of_undefined hc, command_of_undefined hc]
    rfl

/-- A word that spells no access is refused. -/
theorem runWord_of_noAccess {w : XWord} (h : spellsNoAccess w) (s : State) :
    ∃ why, runWord (.xact24 w) s = .refused (.noAccess why) := by
  obtain hd | hd | hd := decode_of_noAccess h <;> exact ⟨_, by rw [runWord, hd]; rfl⟩

/-- Every other event is run to a next state. -/
theorem runEvent_next_or_noAccess (e : HostEvent) (s : State) :
    (∃ t, runEvent e s = .next t) ∨ ∃ w, e = .access (.xact24 w) ∧ spellsNoAccess w := by
  match e with
  | .powerOn => exact .inl ⟨_, rfl⟩
  | .access (.cmd8 v) => exact .inl ⟨_, runWord_cmd8 v s⟩
  | .access (.xact24 w) =>
    obtain hw | hr | hn := xact24_cases w
    · exact .inl ⟨_, (runWord_of_ok (decode_of_wr hw) s).trans (exec_eq _ s)⟩
    · exact .inl ⟨_, (runWord_of_ok (decode_of_rd hr) s).trans (exec_eq _ s)⟩
    · exact .inr ⟨w, rfl, hn⟩

/-- A step answers a next state, or refuses a word that spells no access. -/
theorem step_next_or_noAccess (s : State) :
    (∃ t, step s = .next t) ∨ ∃ w rest, s.pending = .access (.xact24 w) :: rest ∧ spellsNoAccess w := by
  cases hp : s.pending with
  | nil => exact .inl ⟨s, by rw [step, State.nextEvent, hp]; rfl⟩
  | cons e rest =>
    rw [step_cons hp]
    obtain hnext | ⟨w, rfl, hn⟩ := runEvent_next_or_noAccess e { s with pending := rest }
    · exact .inl hnext
    · exact .inr ⟨w, rest, rfl, hn⟩

theorem step_of_noAccess {s : State} {w : XWord} {rest : List HostEvent} (hp : s.pending = .access (.xact24 w) :: rest)
    (h : spellsNoAccess w) : ∃ why, step s = .refused (.noAccess why) := by
  rw [step_cons hp]
  exact runWord_of_noAccess h _

end Sys2Proof.Machine
end

section
/-! ## Runs of accesses without a command (30_encoding.md R78, 20_memory.md R59) -/

namespace Sys2Proof.Machine

/-- A write to an address other than CMD's carries no command byte. -/
theorem commandByte_wr_of_ne {a : Addr} (h : a ≠ 0x184#10) (v : Byte) : commandByte (.wr a v) = none := by
  have hr : region a ≠ .cmd := fun hr => h (BitVec.eq_of_toNat_eq (holds_of_region_eq hr))
  simp [commandByte, hr]

/-- A data write at the head of a run: its effect on the block, and the records as they were. -/
theorem runSession_wr {a : Addr} (h : a ≠ 0x184#10) (v : Byte) (is : List Instr) (s : State) (records : List Record) :
    runSession (.wr a v :: is) s records = runSession is { s with block := s.block.write a v } records := by
  rw [runSession_cons, recordsAfter_none (commandByte_wr_of_ne h v), repliesOf_of_not_rd (by simp), List.append_nil]
  rfl

/-- A run of reads answers the byte of each address in order and changes nothing else. -/
theorem runSession_readsFrom (a n : Nat) (s : State) (records : List Record) :
    runSession (readsFrom a n) s records =
      some ({ s with replies := s.replies ++ (List.range n).map fun k => s.block.read (addrOf (a + k)) }, records) := by
  induction n with
  | zero => simp [readsFrom, runSession]
  | succ n ih =>
    have last : readsFrom a (n + 1) = readsFrom a n ++ [.rd (addrOf (a + n))] := by simp [readsFrom, List.range_succ]
    rw [last, runSession_append, ih, Option.bind_some, runSession_cons, recordsAfter_none rfl]
    simp [runSession, repliesOf, blockAfter, List.range_succ]

theorem addrOf_toNat {n : Nat} (h : n < 1024) : (addrOf n).toNat = n := by
  simp only [addrOf, BitVec.toNat_ofNat]
  omega

/-- The write of one sample at the head of a run (20_memory.md R52). -/
theorem runSession_sample (y : Fin 16) (x : Fin 23) (v : Nat) (is : List Instr) (s : State) (records : List Record) :
    runSession (wrOf (y.val * 23 + x.val) v :: is) s records =
      runSession is { s with block :=
        { s.block with raster := withSample s.block.raster y x (BitVec.ofNat 8 v) } } records := by
  have place : (addrOf (y.val * 23 + x.val)).toNat = y.val * 23 + x.val := addrOf_toNat (by omega)
  have notCmd : addrOf (y.val * 23 + x.val) ≠ 0x184#10 := by
    intro h
    rw [h, BitVec.toNat_ofNat] at place
    omega
  rw [wrOf, runSession_wr notCmd, write_raster _ _ place]

end Sys2Proof.Machine
end

section
/-! ## Registers and their bytes (20_memory.md R59) -/

namespace Sys2Proof.Machine

/-- Writing both bytes of a 16-bit register gives the register they come from, whatever it held. -/
theorem withHi_withLo_bytes (v w : Dim) : withHi (withLo v (loByte w)) (hiByte w) = w :=
  dim_ext (by rw [loByte_withHi, loByte_withLo]) (by rw [hiByte_withHi])

theorem loByte_ofNat (n : Nat) : loByte (BitVec.ofNat 16 n) = BitVec.ofNat 8 (n &&& 0xFF) := by
  apply BitVec.eq_of_toNat_eq
  have mask : n &&& 0xFF = n % 256 := Nat.and_two_pow_sub_one_eq_mod n 8
  simp only [loByte, BitVec.extractLsb'_toNat, BitVec.toNat_ofNat, Nat.shiftRight_zero, mask]
  omega

theorem hiByte_ofNat (n : Nat) : hiByte (BitVec.ofNat 16 n) = BitVec.ofNat 8 (n >>> 8) := by
  apply BitVec.eq_of_toNat_eq
  simp only [hiByte, BitVec.extractLsb'_toNat, BitVec.toNat_ofNat, Nat.shiftRight_eq_div_pow]
  omega

/-- The writes of `dims` set RW and RH. -/
theorem runSession_dims (w h : Nat) (s : State) (records : List Record) :
    runSession (expand (.dims w h)) s records =
      some ({ s with block := { s.block with rw := BitVec.ofNat 16 w, rh := BitVec.ofNat 16 h } }, records) := by
  have writes : expand (.dims w h) =
      [.wr 0x180#10 (loByte (BitVec.ofNat 16 w)), .wr 0x181#10 (hiByte (BitVec.ofNat 16 w)),
        .wr 0x182#10 (loByte (BitVec.ofNat 16 h)), .wr 0x183#10 (hiByte (BitVec.ofNat 16 h))] := by
    rw [loByte_ofNat, hiByte_ofNat, loByte_ofNat, hiByte_ofNat]
    rfl
  rw [writes, runSession_wr (by decide), runSession_wr (by decide), runSession_wr (by decide),
    runSession_wr (by decide), runSession]
  simp only [write_rwLo, write_rwHi, write_rhLo, write_rhHi, withHi_withLo_bytes]

theorem countByte_toNat (v : Count) (k : Fin 4) : (countByte v k).toNat = v.toNat / 2 ^ (8 * k.val) % 256 := by
  simp [countByte, BitVec.extractLsb'_toNat, Nat.shiftRight_eq_div_pow]

/-- A 32-bit register is the little-endian value of its four bytes. -/
theorem count_eq_bytes (v : Count) : v.toNat =
    (countByte v 0).toNat + 256 * (countByte v 1).toNat + 65536 * (countByte v 2).toNat +
      16777216 * (countByte v 3).toNat := by
  have hv := v.isLt
  simp only [countByte_toNat, Fin.isValue, Fin.coe_ofNat_eq_mod, Nat.reduceMod, Nat.reduceMul, Nat.reducePow]
  omega

/-- The bytes read from `OUT[0 .. OUT_LEN-1]` are the record. -/
theorem reads_of_out (b : Block) (h : b.outLen.toNat ≤ 41) :
    ((List.range b.outLen.toNat).map fun k => b.read (addrOf (0x190 + k))) = b.record := by
  apply List.ext_getElem
  · simp [Block.record, h]
  · intro k hk _
    have hlen : k < b.outLen.toNat := by simpa using hk
    rw [List.getElem_map, List.getElem_range, read_out b (k := ⟨k, by omega⟩) (addrOf_toNat (by omega))]
    simp [Block.record]

end Sys2Proof.Machine
end

section
/-! ## Filling the raster (30_encoding.md R78, 20_memory.md R52) -/

namespace Sys2Proof.Machine

/-- Two rasters with the same samples are the same. -/
theorem raster_ext {r r' : Raster} (h : ∀ (y : Fin 16) (x : Fin 23), r[y][x] = r'[y][x]) : r = r' := by
  ext y hy x hx : 2
  exact h ⟨y, hy⟩ ⟨x, hx⟩

/-- The raster with its first `n` samples, in address order, set to `v`. It is tied to the model by
`runSession_fill`. -/
def fillTo (r : Raster) (v : Byte) (n : Nat) : Raster :=
  Vector.ofFn fun y => Vector.ofFn fun x => if y.val * 23 + x.val < n then v else r[y][x]

theorem fillTo_getElem (r : Raster) (v : Byte) (n : Nat) (y : Fin 16) (x : Fin 23) :
    (fillTo r v n)[y][x] = if y.val * 23 + x.val < n then v else r[y][x] := by
  simp [fillTo]

theorem fillTo_zero (r : Raster) (v : Byte) : fillTo r v 0 = r :=
  raster_ext fun y x => by rw [fillTo_getElem, if_neg (Nat.not_lt_zero _)]

/-- The next sample in address order. -/
theorem withSample_fillTo (r : Raster) (v : Byte) {n : Nat} {y : Fin 16} {x : Fin 23} (h : y.val * 23 + x.val = n) :
    withSample (fillTo r v n) y x v = fillTo r v (n + 1) := by
  apply raster_ext
  intro y' x'
  rw [withSample_getElem, fillTo_getElem, fillTo_getElem]
  by_cases here : y' = y ∧ x' = x
  · obtain ⟨rfl, rfl⟩ := here
    rw [if_pos ⟨rfl, rfl⟩, if_pos (by omega)]
  · have elsewhere : y'.val * 23 + x'.val ≠ n := fun he => here ⟨Fin.ext (by omega), Fin.ext (by omega)⟩
    have next : y'.val * 23 + x'.val < n + 1 ↔ y'.val * 23 + x'.val < n := by omega
    simp only [here, if_false, next]

/-- All 368 samples. -/
theorem fillTo_all (r : Raster) (v : Byte) : fillTo r v 368 = Vector.replicate 16 (Vector.replicate 23 v) := by
  apply raster_ext
  intro y x
  rw [fillTo_getElem, if_pos (by omega)]
  simp

/-- Every address below 368 is a sample's (20_memory.md R52). -/
theorem exists_pixel {n : Nat} (h : n < 368) : ∃ (y : Fin 16) (x : Fin 23), y.val * 23 + x.val = n :=
  ⟨⟨n / 23, by omega⟩, ⟨n % 23, by omega⟩, Nat.div_add_mod' n 23⟩

/-- Writing `v` to the first `n` addresses fills the first `n` samples. -/
theorem runSession_fill (v n : Nat) (hn : n ≤ 368) (s : State) (records : List Record) :
    runSession (expand (.fill (.reg .raster 0) n v)) s records =
      some ({ s with block := { s.block with raster := fillTo s.block.raster (BitVec.ofNat 8 v) n } }, records) := by
  induction n with
  | zero => rw [fillTo_zero]; rfl
  | succ n ih =>
    obtain ⟨y, x, place⟩ := exists_pixel (show n < 368 from hn)
    have last : expand (.fill (.reg .raster 0) (n + 1) v) =
        expand (.fill (.reg .raster 0) n v) ++ [wrOf (y.val * 23 + x.val) v] := by
      simp [expand, List.range_succ, AddrExpr.value, RegName.base, place]
    rw [last, runSession_append, ih (by omega), Option.bind_some, runSession_sample, withSample_fillTo _ _ place,
      runSession]

end Sys2Proof.Machine
end

section
/-! ## The obligations of the encoding and the host assembly -/

namespace Sys2Proof.Machine

/-- Settles O4: decoding undoes encoding, and a word is made of the fields its row keeps. -/
theorem decodeAndEncodeAgree : Obligations.DecodeAndEncodeAgree := ⟨decode_encode, fun _ _ => encode_of_decode⟩

/-- Settles O3: the rows say what an accepted word decodes to, and a word of no row is rejected by name. -/
theorem xact24MapIsItsTwoRows : Obligations.Xact24MapIsItsTwoRows := by
  intro w
  refine ⟨fun a d => ⟨fun h => ?_, ?_⟩, fun a => ⟨fun h => ?_, ?_⟩, decode_of_noAccess⟩
  · obtain ⟨hw, hi⟩ | ⟨-, hi⟩ := xact24_row_of_ok h <;> cases hi
    exact ⟨hw, rfl, rfl⟩
  · rintro ⟨hw, rfl, rfl⟩
    exact decode_of_wr hw
  · obtain ⟨-, hi⟩ | ⟨hr, hi⟩ := xact24_row_of_ok h <;> cases hi
    exact ⟨hr, rfl⟩
  · rintro ⟨hr, rfl⟩
    exact decode_of_rd hr

/-- Settles O10: a word of no row is refused, and everything else that can be pending is run to a next state. -/
theorem stepStopsExactlyOnNoAccess : Obligations.StepStopsExactlyOnNoAccess := by
  intro s
  refine ⟨⟨?_, ?_⟩, ?_⟩
  · rintro ⟨why, hwhy⟩
    obtain ⟨t, ht⟩ | hno := step_next_or_noAccess s
    · cases ht.symm.trans hwhy
    · exact hno
  · rintro ⟨w, rest, hp, hn⟩
    exact step_of_noAccess hp hn
  · exact (step_next_or_noAccess s).imp_right fun ⟨_, _, hp, hn⟩ => step_of_noAccess hp hn

/-- Settles O11: both spellings run the byte on the block. -/
theorem cmd8WordIsWriteToCmd : Obligations.Cmd8WordIsWriteToCmd := by
  intro s v
  calc step (s.withNextWord (.cmd8 v)) = runWord (.cmd8 v) s := step_withNextWord s _
    _ = .next { s with block := s.block.command v } := runWord_cmd8 v s
    _ = exec (.wr 0x184#10 v) s := (exec_of_command rfl s).symm

/-- Settles O47: the writes of each expansion, one after another. -/
theorem inputPseudosRun : Obligations.InputPseudosRun := by
  refine fun s records => ⟨fun w h _ => runSession_dims w h s records,
    fun y x v _ => runSession_sample y x v [] s records, fun v _ => ?_⟩
  rw [← fillTo_all s.block.raster]
  exact runSession_fill v 368 le_rfl s records

/-- Settles O48: the reads of each expansion, and the bytes of a register or of OUT. -/
theorem reportPseudosRun : Obligations.ReportPseudosRun := by
  intro s records
  refine ⟨?fcount, ?bcount, ?record⟩
  case fcount => exact ⟨_, _, _, _, runSession_readsFrom 0x188 4 s records, count_eq_bytes s.block.fcount⟩
  case bcount => exact ⟨_, _, _, _, runSession_readsFrom 0x18C 4 s records, count_eq_bytes s.block.bcount⟩
  case record =>
    intro h
    rw [← reads_of_out s.block h]
    exact runSession_readsFrom 0x190 s.block.outLen.toNat s records

/-- Settles O5: a table word is the instruction's encoding, which the step decodes back. -/
theorem fetchedTableWordRuns : Obligations.FetchedTableWordRuns := by
  refine fun i s => ⟨decodeTableWord_encode i, ?_⟩
  rw [State.withFetchWord, wordOfTable_value, step_withNextWord]
  exact runWord_of_ok (decode_encode i) s

/-- Settles O2: four bytes of the map, and every other one undefined. -/
theorem cmd8MapIsItsFourBytes : Obligations.Cmd8MapIsItsFourBytes := by
  refine fun op => ⟨?_, ?_, ?_, ?_, decode_of_undefined⟩ <;>
    · rintro rfl
      rfl

/-- Settles O1, by running the decoder on each word. -/
theorem opcodeWordsDecode : Obligations.OpcodeWordsDecode := by
  unfold Obligations.OpcodeWordsDecode
  decide

end Sys2Proof.Machine
end

section
/-! ## Where a pixel lies, and the bit it becomes (40_packer.md R91, R92, R94) -/

namespace Sys2Proof.Machine

/-- R91 and R92 read from the pixel: its block and its place in it are computed from its coordinates, and no other block
and place have it. -/
theorem pixel_eq_iff {b dy : Fin 8} {dx : Fin 5} {y : Fin 16} {x : Fin 23} :
    pixelY b dy = y ∧ pixelX b dx = x ↔
      b.val = y.val / 8 * 4 + x.val / 6 ∧ dy.val = y.val % 8 ∧ dx.val = x.val % 6 := by
  simp only [pixelY, pixelX, Config.blockH, Config.gridCols, Config.colStride, Fin.ext_iff]
  omega

/-- A pixel of an in-block column is one of a block's 40. -/
theorem exists_pixel_of_inBlock {x : Fin 23} (h : inBlock x) {y : Fin 16} {b : Fin 8}
    (hb : b.val = y.val / 8 * 4 + x.val / 6) : ∃ (dy : Fin 8) (dx : Fin 5), pixelY b dy = y ∧ pixelX b dx = x :=
  ⟨⟨y.val % 8, by omega⟩, ⟨x.val % 6, by omega⟩, pixel_eq_iff.mpr ⟨hb, rfl, rfl⟩⟩

theorem inBlock_pixelX (b : Fin 8) (dx : Fin 5) : inBlock (pixelX b dx) := by
  have place := (pixel_place b 0 dx).1
  omega

/-- No pixel is in two places. -/
theorem pixel_inj {b b' dy dy' : Fin 8} {dx dx' : Fin 5} (hy : pixelY b' dy' = pixelY b dy)
    (hx : pixelX b' dx' = pixelX b dx) : b' = b ∧ dy' = dy ∧ dx' = dx := by
  obtain ⟨hb, hdy, hdx⟩ := pixel_eq_iff.mp ⟨hy, hx⟩
  obtain ⟨hb', hdy', hdx'⟩ := pixel_eq_iff.mp ⟨rfl, rfl⟩
  exact ⟨Fin.ext (hb.trans hb'.symm), Fin.ext (hdy.trans hdy'.symm), Fin.ext (hdx.trans hdx'.symm)⟩

theorem pixelOn_iff (r : Raster) (y : Fin 16) (x : Fin 23) : pixelOn r y x = true ↔ r[y][x] = 0x00#8 := by
  simp [pixelOn]

/-- Writing 0x00 to a sample switches its pixel on and no other (R93). -/
theorem pixelOn_withSample_zero (r : Raster) (y y' : Fin 16) (x x' : Fin 23) :
    pixelOn (withSample r y x 0x00#8) y' x' = (pixelOn r y' x' || decide (y' = y ∧ x' = x)) := by
  rw [Bool.eq_iff_iff, Bool.or_eq_true, decide_eq_true_eq, pixelOn_iff, pixelOn_iff, withSample_getElem]
  by_cases h : y' = y ∧ x' = x <;> simp [h]

/-- PACK on an accepted raster (R98). -/
theorem exec_pack_of_ready {s : State} (h : s.block.ready) : exec .pack s =
    .next { s with block := { s.block with cur := packFrame s.block.raster, curValid := true } } := by
  obtain ⟨noFault, geometry⟩ := h
  rw [exec_pack, unlessFaulted_of_clear _ _ noFault, Block.pack_of_ok _ geometry]

/-- Gap pixels do not matter (R92). -/
theorem packFrame_congr {r r' : Raster}
    (h : ∀ (y : Fin 16) (x : Fin 23), inBlock x → pixelOn r y x = pixelOn r' y x) :
    packFrame r = packFrame r' := by
  ext1 b hb
  rw [packFrame_getElem, packFrame_getElem]
  exact packBlock_congr r r' _ fun dy dx => h _ _ (inBlock_pixelX _ dx)

/-- One byte after the bit of a local index is set (R94, R99). -/
theorem setLocal_getElem (B : PackedBlock) (i : Fin 40) (j : Fin 5) :
    (setLocal B i)[j] = B[j] ||| (if j.val = i.val / 8 then 0x80#8 >>> (i.val % 8) else 0x00#8) := by
  have bit : ∀ k < 8, 1#8 <<< (7 - k) = 0x80#8 >>> k := by decide
  simp only [setLocal, Fin.getElem_fin, Vector.getElem_set]
  by_cases h : i.val / 8 = j.val
  · simp [h, bit (i.val % 8) (by omega)]
  · simp [h, Ne.symm h]

/-- Switching a pixel on sets the bit of its local index, in its own block alone (R99). -/
theorem packBlock_withSample_zero (r : Raster) (b b' dy : Fin 8) (dx : Fin 5) :
    packBlock (withSample r (pixelY b dy) (pixelX b dx) 0x00#8) b' =
      if b' = b then setLocal (packBlock r b') (localIndex dy dx) else packBlock r b' := by
  apply packedBlock_ext
  intro k
  obtain ⟨dy', dx', rfl⟩ : ∃ dy' dx', k = localIndex dy' dx' := ⟨_, _, eq_localIndex k⟩
  rw [localBit_packBlock, pixelOn_withSample_zero]
  split
  case isTrue same =>
    subst same
    rw [localBit_setLocal, localBit_packBlock]
    congr 1
    refine decide_eq_decide.mpr ⟨fun ⟨hy, hx⟩ => ?_, fun h => ?_⟩
    · obtain ⟨-, rfl, rfl⟩ := pixel_inj hy hx
      rfl
    · obtain ⟨rfl, rfl⟩ := localIndex_inj h
      exact ⟨rfl, rfl⟩
  case isFalse other =>
    have elsewhere : ¬ (pixelY b' dy' = pixelY b dy ∧ pixelX b' dx' = pixelX b dx) :=
      fun ⟨hy, hx⟩ => other (pixel_inj hy hx).1
    rw [localBit_packBlock, decide_eq_false elsewhere, Bool.or_false]

end Sys2Proof.Machine
end

section
/-! ## The 40-bit field of a block (40_packer.md R95) -/

namespace Sys2Proof.Machine

/-- A byte shifted to bit `n` is seen at bit `n`, and not in the eight bits above or below it. -/
theorem extractLsb'_byte_shiftLeft (w : Byte) {n m : Nat} (fits : n + 8 ≤ 40)
    (apart : n = m ∨ n + 8 ≤ m ∨ m + 8 ≤ n) :
    (w.setWidth 40 <<< n).extractLsb' m 8 = if n = m then w else 0x00#8 := by
  apply BitVec.eq_of_getLsbD_eq
  intro k hk
  obtain rfl | above | below := apart
  · simp [hk, show n + k < 40 by omega]
  · have outside : w.getLsbD (m + k - n) = false := BitVec.getLsbD_of_ge _ _ (by omega)
    simp [outside, show n ≠ m by omega]
  · simp [show m + k < n by omega, show n ≠ m by omega]

/-- Byte `j` of the block is bits `39 - 8j .. 32 - 8j` of the field. -/
theorem fieldOf_byte (p : PackedBlock) (j : Fin 5) : (fieldOf p).extractLsb' (32 - 8 * j.val) 8 = p[j] := by
  have lowest (m : Nat) := extractLsb'_byte_shiftLeft p[4] (n := 0) (m := m)
  simp only [BitVec.shiftLeft_zero] at lowest
  fin_cases j <;> simp [fieldOf, BitVec.extractLsb'_or, extractLsb'_byte_shiftLeft, lowest]

/-- Local index `i` is bit `39 - i` of the field. -/
theorem fieldOf_localBit (p : PackedBlock) (i : Fin 40) : (fieldOf p).getLsbD (39 - i.val) = localBit p i := by
  have byte := fieldOf_byte p ⟨i.val / 8, by omega⟩
  have place : 32 - 8 * (i.val / 8) + (7 - i.val % 8) = 39 - i.val := by omega
  have inByte : 7 - i.val % 8 < 8 := by omega
  simp only [Fin.getElem_fin] at byte
  rw [localBit, ← byte, BitVec.getLsbD_extractLsb', place, decide_eq_true inByte, Bool.true_and]

theorem toNat_five_bits : ∀ v : BitVec 5, v.toNat = 16 * (v.getLsbD 4).toNat + 8 * (v.getLsbD 3).toNat +
    4 * (v.getLsbD 2).toNat + 2 * (v.getLsbD 1).toNat + (v.getLsbD 0).toNat := by
  decide

/-- Bit `4 - dx` of the `r`-th five bits of the field is the pixel of local row `r` and column `dx`. -/
theorem fieldOf_packBlock_row (raster : Raster) (b r : Fin 8) (dx : Fin 5) :
    ((fieldOf (packBlock raster b)).extractLsb' (35 - 5 * r.val) 5).getLsbD (4 - dx.val) =
      pixelOn raster (pixelY b r) (pixelX b dx) := by
  have place : 35 - 5 * r.val + (4 - dx.val) = 39 - (localIndex r dx).val := by
    simp only [localIndex, Config.blockW]
    omega
  have inRow : 4 - dx.val < 5 := by omega
  rw [BitVec.getLsbD_extractLsb', place, decide_eq_true inRow, Bool.true_and, fieldOf_localBit, localBit_packBlock]

end Sys2Proof.Machine
end

section
/-! ## Counting the 1 bits (40_packer.md R100) -/

namespace Sys2Proof.Machine

/-- The bits of a byte counted from the most significant one, as R94 numbers them. -/
theorem popcount_eq_countP_rev (m : Byte) : popcount m = (List.finRange 8).countP fun k => m.getLsbD (7 - k.val) := by
  rw [popcount, ← List.countP_reverse, List.finRange_reverse, List.countP_map]
  congr 1
  funext k
  have place : (k.rev).val = 7 - k.val := by rw [Fin.val_rev]; omega
  rw [Function.comp_apply, place]

theorem toList_eq_map_finRange {α : Type} {n : Nat} (v : Vector α n) :
    v.toList = (List.finRange n).map fun i => v[i] := by
  apply List.ext_getElem <;> simp

theorem countP_product {α β : Type} (q : α × β → Bool) (l : List α) (m : List β) :
    (l ×ˢ m).countP q = (l.map fun a => m.countP fun b => q (a, b)).sum := by
  rw [show l ×ˢ m = l.flatMap fun a => m.map (Prod.mk a) from rfl, List.countP_flatMap]
  simp only [Function.comp_def, List.countP_map]

/-- The local indices, byte by byte (R94). -/
theorem finRange_eq_bytes : List.finRange 40 =
    (List.finRange 5).flatMap fun j => (List.finRange 8).map fun k => ⟨8 * j.val + k.val, by omega⟩ := by
  decide

/-- The local indices, row by row (R94). -/
theorem finRange_eq_rows :
    List.finRange 40 = (List.finRange 8 ×ˢ List.finRange 5).map fun p => localIndex p.1 p.2 := by
  decide

/-- The 1 bits of a block are its local bits. -/
theorem sum_popcount_eq_countP_localBit (p : PackedBlock) :
    (p.toList.map popcount).sum = (List.finRange 40).countP (localBit p) := by
  rw [toList_eq_map_finRange, List.map_map, finRange_eq_bytes, List.countP_flatMap]
  congr 2
  funext j
  rw [Function.comp_apply, Function.comp_apply, popcount_eq_countP_rev, List.countP_map]
  congr 1
  funext k
  have byte : (8 * j.val + k.val) / 8 = j.val := by omega
  have bit : (8 * j.val + k.val) % 8 = k.val := by omega
  simp only [Function.comp_apply, localBit, byte, bit, Fin.getElem_fin]

/-- The 1 bits of a packed block are its pixels that are on. -/
theorem sum_popcount_packBlock (r : Raster) (b : Fin 8) :
    ((packBlock r b).toList.map popcount).sum =
      (List.finRange 8 ×ˢ List.finRange 5).countP fun p => pixelOn r (pixelY b p.1) (pixelX b p.2) := by
  rw [sum_popcount_eq_countP_localBit, finRange_eq_rows, List.countP_map]
  congr 1
  funext p
  exact localBit_packBlock r b p.1 p.2

/-- The pixel of a block and a place in it. -/
def pixelAt (q : Fin 8 × Fin 8 × Fin 5) : Fin 16 × Fin 23 := (pixelY q.1 q.2.1, pixelX q.1 q.2.2)

theorem pixelAt_injective : Function.Injective pixelAt := by
  rintro ⟨b, dy, dx⟩ ⟨b', dy', dx'⟩ same
  obtain ⟨hy, hx⟩ := Prod.mk.inj same
  obtain ⟨rfl, rfl, rfl⟩ := pixel_inj hy hx
  rfl

/-- The blocks' pixels are the in-block pixels of the raster, each once (R92). -/
theorem blockPixels_perm :
    ((List.finRange 8 ×ˢ (List.finRange 8 ×ˢ List.finRange 5)).map pixelAt).Perm
      ((List.finRange 16 ×ˢ List.finRange 23).filter fun p => inBlock p.2) := by
  have places : (List.finRange 8 ×ˢ (List.finRange 8 ×ˢ List.finRange 5)).Nodup :=
    (List.nodup_finRange 8).product ((List.nodup_finRange 8).product (List.nodup_finRange 5))
  have pixels : (List.finRange 16 ×ˢ List.finRange 23).Nodup :=
    (List.nodup_finRange 16).product (List.nodup_finRange 23)
  refine (List.perm_ext_iff_of_nodup (places.map pixelAt_injective) (pixels.filter _)).mpr fun ⟨y, x⟩ => ?_
  simp only [List.mem_map, List.mem_filter, List.mem_product, List.mem_finRange, decide_eq_true_eq, true_and]
  constructor
  · rintro ⟨⟨b, dy, dx⟩, -, same⟩
    obtain ⟨rfl, rfl⟩ := Prod.mk.inj same
    exact inBlock_pixelX b dx
  · intro h
    obtain ⟨dy, dx, hy, hx⟩ := exists_pixel_of_inBlock h (b := ⟨y.val / 8 * 4 + x.val / 6, by omega⟩) rfl
    exact ⟨⟨_, dy, dx⟩, by simp, Prod.ext hy hx⟩

/-- The 1 bits of the packed frame are the in-block pixels that are on. -/
theorem sum_popcount_packFrame (r : Raster) :
    ((packFrame r).toList.map fun p => (p.toList.map popcount).sum).sum =
      (List.finRange 16 ×ˢ List.finRange 23).countP fun p => pixelOn r p.1 p.2 && decide (inBlock p.2) := by
  rw [← List.countP_filter, ← blockPixels_perm.countP_eq, List.countP_map, countP_product,
    toList_eq_map_finRange, List.map_map]
  congr 2
  funext b
  rw [Function.comp_apply, Fin.getElem_fin, packFrame_getElem]
  exact sum_popcount_packBlock r b

end Sys2Proof.Machine
end

section
/-! ## The obligations of the packer -/

namespace Sys2Proof.Machine

/-- Settles O17: PACK takes the packed frame, whose bits R94 places. -/
theorem packSetsEveryLocalBit : Obligations.PackSetsEveryLocalBit := by
  refine fun s ready => ⟨_, exec_pack_of_ready ready, fun b dy dx y x i hx hy hi => ?_⟩
  obtain rfl : pixelX b dx = x := Fin.ext hx.symm
  obtain rfl : pixelY b dy = y := Fin.ext hy.symm
  obtain rfl : localIndex dy dx = i := Fin.ext hi.symm
  rw [Fin.getElem_fin, packFrame_getElem, localBit_packBlock, pixelOn_iff]

/-- Settles O19: the pixel's block gets the bit of its local index, and the other blocks nothing. -/
theorem onePixelSetsOneBit : Obligations.OnePixelSetsOneBit := by
  intro r y x b i hx hb hi _ b' j
  obtain ⟨dy, dx, rfl, rfl⟩ := exists_pixel_of_inBlock hx hb
  obtain ⟨hdx, -, hdy⟩ := pixel_place b dy dx
  obtain rfl : localIndex dy dx = i := Fin.ext (by rw [hi, hdx, hdy]; rfl)
  rw [Fin.getElem_fin _ b', Fin.getElem_fin _ b', packFrame_getElem, packFrame_getElem, packBlock_withSample_zero]
  by_cases same : b' = b
  · simp only [same, if_true, true_and, setLocal_getElem]
  · simp only [same, if_false, false_and, BitVec.or_zero]

/-- Settles O20: both states take a packed frame, and the two frames are one. -/
theorem packSeesOnlyInBlockZeros : Obligations.PackSeesOnlyInBlockZeros :=
  fun _ _ ready ready' same => ⟨_, _, exec_pack_of_ready ready, exec_pack_of_ready ready',
    packFrame_congr fun y x hx => by rw [Bool.eq_iff_iff, pixelOn_iff, pixelOn_iff, same y x hx]⟩

/-- Settles O22: the rows by their bits, the bytes and the bits by the field's own lemmas. -/
theorem packedFieldIsItsRows : Obligations.PackedFieldIsItsRows := by
  refine fun s ready => ⟨_, exec_pack_of_ready ready, fun b r => ⟨?row, fun j => (fieldOf_byte _ j).symm,
    fieldOf_localBit _⟩⟩
  have bit := fieldOf_packBlock_row s.block.raster b r
  rw [Fin.getElem_fin, packFrame_getElem, toNat_five_bits, ← bit 0, ← bit 1, ← bit 2, ← bit 3, ← bit 4]
  rfl

/-- Settles O23: the local bits of a block are its pixels, and the blocks' pixels are the in-block pixels. -/
theorem onesCountZeroSamples : Obligations.OnesCountZeroSamples := by
  refine fun r => ⟨sum_popcount_packBlock r, (sum_popcount_packFrame r).trans ?_⟩
  congr 1
  funext p
  rw [Bool.and_comm, pixelOn, Bool.decide_and]

/-- Settles O21: a pixel's block and place are computed from its coordinates. -/
theorem blocksPartitionThePixels : Obligations.BlocksPartitionThePixels := by
  refine fun y x b => ⟨?_, fun ⟨hx, hb⟩ => exists_pixel_of_inBlock hx hb⟩
  rintro ⟨dy, dx, rfl, rfl⟩
  exact ⟨inBlock_pixelX b dx, (pixel_place b dy dx).2.1.symm⟩

end Sys2Proof.Machine
end

section
/-! ## The record and the buffer (41_delta_encoder.md R114, R115) -/

namespace Sys2Proof.Machine

/-- The record of an empty mask is the mask byte alone. -/
theorem recordOf_zero (cur : PackedFrame) : recordOf 0x00#8 cur = [0x00#8] := by
  simp [recordOf, payload]

/-- The payload of a mask with one bit is the five bytes of that block. -/
theorem payload_single (k : Fin 8) (cur : PackedFrame) : payload (1#8 <<< k.val) cur = cur[k].toList := by
  have only : ∀ i : Fin 8, i ≠ k → (1#8 <<< k.val).getLsbD i.val = false := fun i hi => by
    rw [one_shiftLeft_getLsbD k.isLt i.isLt, decide_eq_false fun h => hi (Fin.ext h.symm)]
  have own : (1#8 <<< k.val).getLsbD k.val = true := by
    rw [one_shiftLeft_getLsbD k.isLt k.isLt, decide_eq_true rfl]
  have none_of (l : List (Fin 8)) (hl : k ∉ l) :
      (l.flatMap fun i => if (1#8 <<< k.val).getLsbD i.val then cur[i].toList else []) = [] :=
    List.flatMap_eq_nil_iff.mpr fun i hi => if_neg (Bool.eq_false_iff.mp (only i fun h => hl (h ▸ hi)))
  rw [payload, finRange_split k, List.flatMap_append, List.flatMap_cons, none_of _ (by simp), none_of _ (by simp),
    if_pos own, List.append_nil, List.nil_append]

/-- A selected block's bytes stand at the block's offset in the record. -/
theorem recordOf_getD (m : Byte) (cur : PackedFrame) {i : Fin 8} (j : Fin 5) (h : m.getLsbD i.val = true) :
    (recordOf m cur).getD (recordOffset m i + j.val) 0x00#8 = cur[i][j] := by
  have place : recordOffset m i + j.val = 5 * selectedBelow m i + j.val + 1 := by
    rw [recordOffset_eq]
    omega
  rw [place, recordOf, List.getD_cons_succ, payload_getD m cur i j h]

/-- A selected block ends inside the record. -/
theorem recordOffset_add_le {m : Byte} {i : Fin 8} (h : m.getLsbD i.val = true) :
    recordOffset m i + 5 ≤ 1 + 5 * popcount m := by
  have := selectedBelow_lt m i h
  rw [recordOffset_eq]
  omega

theorem bufferOf_recordOf_head (m : Byte) (cur : PackedFrame) : (bufferOf (recordOf m cur))[0] = m := by
  simp [recordOf]

/-- The buffer is 0x00 behind the record. -/
theorem bufferOf_tail {r : Record} {k : Fin 41} (h : r.length ≤ k.val) : (bufferOf r)[k] = 0x00#8 :=
  (bufferOf_getElem r k.val k.isLt).trans (List.getD_eq_default _ _ h)

end Sys2Proof.Machine
end

section
/-! ## The block after a successful ENCODE or FRAME (41_delta_encoder.md R116, R117, 42_sequencing.md R132) -/

namespace Sys2Proof.Machine

variable (b : Block) (cur : PackedFrame) (m : Byte)

@[simp] theorem Block.framed_raster : (b.framed cur m).raster = b.raster := rfl
@[simp] theorem Block.framed_rw : (b.framed cur m).rw = b.rw := rfl
@[simp] theorem Block.framed_rh : (b.framed cur m).rh = b.rh := rfl
@[simp] theorem Block.framed_cur : (b.framed cur m).cur = cur := rfl
@[simp] theorem Block.framed_prev : (b.framed cur m).prev = cur := rfl
@[simp] theorem Block.framed_prevValid : (b.framed cur m).prevValid = true := rfl
@[simp] theorem Block.framed_curValid : (b.framed cur m).curValid = false := rfl
@[simp] theorem Block.framed_mask : (b.framed cur m).mask = m := rfl
@[simp] theorem Block.framed_out : (b.framed cur m).out = bufferOf (recordOf m cur) := rfl
@[simp] theorem Block.framed_fault : (b.framed cur m).fault = b.fault := rfl
@[simp] theorem Block.framed_err : (b.framed cur m).err = b.err := rfl

theorem Block.framed_bcount :
    (b.framed cur m).bcount = b.bcount + (BitVec.ofNat 8 (recordOf m cur).length).setWidth 32 := rfl

@[simp] theorem Block.framed_outLen_toNat : (b.framed cur m).outLen.toNat = 1 + 5 * popcount m :=
  recordOf_length_toNat m cur

@[simp] theorem Block.framed_record : (b.framed cur m).record = recordOf m cur := record_eq _ m cur rfl rfl

theorem Block.framed_fcount_toNat : (b.framed cur m).fcount.toNat = (b.fcount.toNat + 1) % 2 ^ 32 :=
  BitVec.toNat_add ..

theorem Block.framed_bcount_toNat :
    (b.framed cur m).bcount.toNat = (b.bcount.toNat + (b.framed cur m).outLen.toNat) % 2 ^ 32 := by
  have widened : ((b.framed cur m).outLen.setWidth 32).toNat = (b.framed cur m).outLen.toNat :=
    BitVec.toNat_setWidth_of_le (by omega)
  rw [← widened]
  exact BitVec.toNat_add ..

/-- ENCODE on a fresh CUR. -/
theorem exec_encode_of_fresh {s : State} (noFault : s.block.fault = false) (fresh : s.block.curValid = true)
    {m : Byte} (mask : changeMask (!s.block.prevValid) s.block.cur s.block.prev = m) :
    exec .encode s = .next { s with block := s.block.framed s.block.cur m } := by
  rw [exec_encode, unlessFaulted_of_clear _ _ noFault, Block.encode_fields _ fresh m mask]
  rfl

/-- FRAME on an accepted raster. -/
theorem exec_frame_of_ready {s : State} (ready : s.block.ready) {m : Byte}
    (mask : changeMask (!s.block.prevValid) (packFrame s.block.raster) s.block.prev = m) :
    exec .frame s = .next { s with block := s.block.framed (packFrame s.block.raster) m } := by
  rw [exec_frame, unlessFaulted_of_clear _ _ ready.1, packThenEncode_of_ready _ ready _ m rfl mask]

/-- The first frame of a session selects every block, whatever PREV holds (R113). -/
theorem changeMask_of_first {prevValid : Bool} (h : prevValid = false) (cur prev : PackedFrame) :
    changeMask (!prevValid) cur prev = 0xFF#8 := by
  rw [h]
  exact changeMask_first cur prev

end Sys2Proof.Machine
end

section
/-! ## The obligations of ENCODE -/

namespace Sys2Proof.Machine

/-- Settles O24: the comparator bit by bit, and the first frame, whose mask does not depend on PREV. -/
theorem encodeMakesTheChangeMask : Obligations.EncodeMakesTheChangeMask := by
  refine fun s noFault fresh => ⟨_, exec_encode_of_fresh noFault fresh rfl, fun i => ?bits, fun first => ?refresh,
    fun first p => ?unread⟩
  case bits =>
    rw [Block.framed_mask, changeMask_getLsbD, Bool.or_eq_true, Bool.not_eq_true', bne_iff_ne]
  case refresh =>
    rw [changeMask_of_first first]
    exact ⟨rfl, BitVec.eq_of_toNat_eq (Block.framed_outLen_toNat ..)⟩
  case unread =>
    rw [changeMask_of_first first]
    exact exec_encode_of_fresh (s := { s with block := { s.block with prev := p } }) noFault fresh
      (changeMask_of_first first s.block.cur p)

/-- Settles O25: the buffer holds the record, and a selected block stands in the record at its offset. -/
theorem encodeEmitsTheRecord : Obligations.EncodeEmitsTheRecord := by
  refine fun s noFault fresh => ⟨_, exec_encode_of_fresh noFault fresh rfl, Block.framed_outLen_toNat ..,
    bufferOf_recordOf_head .., fun i selected => ⟨recordOffset_eq .., ?inside, fun j k place => ?bytes⟩,
    fun k behind => bufferOf_tail ?behind, Block.framed_record ..⟩
  case inside =>
    rw [Block.framed_outLen_toNat]
    exact recordOffset_add_le selected
  case bytes =>
    rw [← recordOf_getD _ s.block.cur j selected, ← place]
    exact bufferOf_getElem _ k.val k.isLt
  case behind =>
    rw [recordOf_length]
    rwa [Block.framed_outLen_toNat] at behind

/-- Settles O26: the block after a successful ENCODE, element by element. -/
theorem encodeUpdatesPreviousAndCounts : Obligations.EncodeUpdatesPreviousAndCounts := by
  intro s noFault fresh
  obtain ⟨m, mask⟩ : ∃ m, changeMask (!s.block.prevValid) s.block.cur s.block.prev = m := ⟨_, rfl⟩
  exact ⟨m, _, _, _, _, exec_encode_of_fresh noFault fresh mask, Block.framed_outLen_toNat s.block s.block.cur m,
    Block.framed_fcount_toNat s.block s.block.cur m, Block.framed_bcount_toNat s.block s.block.cur m⟩

end Sys2Proof.Machine
end

section
/-! ## One changed pixel (40_packer.md R94, 41_delta_encoder.md R113) -/

namespace Sys2Proof.Machine

/-- A sample whose pixel is switched changes the packed bytes of the pixel's block, and of no other. -/
theorem packBlock_withSample_ne_iff {r : Raster} {y : Fin 16} {x : Fin 23} {v : Byte} {k : Fin 8} (hx : inBlock x)
    (hk : k.val = y.val / 8 * 4 + x.val / 6) (switched : ¬ (r[y][x] = 0x00#8 ↔ v = 0x00#8)) (i : Fin 8) :
    packBlock (withSample r y x v) i ≠ packBlock r i ↔ k = i := by
  constructor
  · intro changed
    by_contra other
    refine changed (packBlock_congr _ r i fun dy dx => ?_)
    have elsewhere : ¬ (pixelY i dy = y ∧ pixelX i dx = x) := fun same =>
      other (Fin.ext (hk.trans (pixel_eq_iff.mp same).1.symm))
    rw [Bool.eq_iff_iff, pixelOn_iff, pixelOn_iff, withSample_getElem, if_neg elsewhere]
  · rintro rfl same
    obtain ⟨dy, dx, rfl, rfl⟩ := exists_pixel_of_inBlock hx hk
    refine switched ?_
    rw [← pixelOn_iff, ← localBit_packBlock, ← same, localBit_packBlock, pixelOn_iff, withSample_getElem,
      if_pos ⟨rfl, rfl⟩]

/-- The mask against a frame packed before one pixel was switched selects the pixel's block alone. -/
theorem changeMask_withSample {r : Raster} {y : Fin 16} {x : Fin 23} {v : Byte} {k : Fin 8} (hx : inBlock x)
    (hk : k.val = y.val / 8 * 4 + x.val / 6) (switched : ¬ (r[y][x] = 0x00#8 ↔ v = 0x00#8)) :
    changeMask false (packFrame (withSample r y x v)) (packFrame r) = 1#8 <<< k.val := by
  apply byte_ext
  intro i
  rw [changeMask_getLsbD, Bool.false_or, one_shiftLeft_getLsbD k.isLt i.isLt, Fin.getElem_fin, Fin.getElem_fin,
    packFrame_getElem, packFrame_getElem, Bool.eq_iff_iff, bne_iff_ne, decide_eq_true_eq, ← Fin.ext_iff]
  exact packBlock_withSample_ne_iff hx hk switched i

end Sys2Proof.Machine
end

section
/-! ## The obligations of two FRAMEs -/

namespace Sys2Proof.Machine

/-- FRAME right after a FRAME, over the raster that stands there by then: PREV is the frame packed before. -/
theorem exec_frame_after_frame {s : State} (ready : s.block.ready) (cur : PackedFrame) (m : Byte) (r : Raster)
    {m' : Byte} (mask : changeMask false (packFrame r) cur = m') :
    exec .frame { s with block := { s.block.framed cur m with raster := r } } =
      .next { s with block := Block.framed { s.block.framed cur m with raster := r } (packFrame r) m' } :=
  exec_frame_of_ready (s := { s with block := { s.block.framed cur m with raster := r } }) ready mask

/-- Settles O42: the second FRAME packs the frame that the first one made the previous frame. -/
theorem repeatedFrameIsOneByte : Obligations.RepeatedFrameIsOneByte := by
  intro s ready
  obtain ⟨m, mask⟩ :
      ∃ m, changeMask (!s.block.prevValid) (packFrame s.block.raster) s.block.prev = m := ⟨_, rfl⟩
  refine ⟨_, _, exec_frame_of_ready ready mask,
    exec_frame_after_frame ready (packFrame s.block.raster) m s.block.raster (changeMask_same _), rfl, ?record, ?count,
    rfl⟩
  case record => rw [Block.framed_record, recordOf_zero]
  case count => rw [Block.framed_bcount, recordOf_zero]; rfl

/-- Settles O43: the mask selects the pixel's block alone, and the record of one block is that block. -/
theorem oneChangedPixelSelectsItsBlock : Obligations.OneChangedPixelSelectsItsBlock := by
  intro s y x v k ready hx hk switched
  obtain ⟨m, mask⟩ :
      ∃ m, changeMask (!s.block.prevValid) (packFrame s.block.raster) s.block.prev = m := ⟨_, rfl⟩
  have written := exec_wr { s with block := s.block.framed (packFrame s.block.raster) m }
    (BitVec.ofNat 10 (y.val * 23 + x.val)) v
  rw [write_raster _ v (y := y) (x := x) (by rw [BitVec.toNat_ofNat]; omega)] at written
  refine ⟨_, _, _, exec_frame_of_ready ready mask, written,
    exec_frame_after_frame ready (packFrame s.block.raster) m _ (changeMask_withSample hx hk switched), rfl, ?record,
    ?block⟩
  case record => rw [Block.framed_record, recordOf, payload_single, Block.framed_cur]
  case block => exact packFrame_getElem _ k.val k.isLt

end Sys2Proof.Machine
end

section
/-! ## What the host's writes of a frame leave (42_sequencing.md R137 step 2) -/

namespace Sys2Proof.Machine

/-- The block with the dimensions and the raster of a frame. It is tied to the model by `runSession_inputs`. -/
def Block.withInput (b : Block) (f : Presented) : Block := { b with rw := f.rw, rh := f.rh, raster := f.raster }

/-- The raster `q` after the samples of `r` at the given pixels are written, one after another. -/
def writeSamples (r : Raster) : List (Fin 16 × Fin 23) → Raster → Raster
  | [], q => q
  | (y, x) :: ps, q => writeSamples r ps (withSample q y x r[y][x])

theorem writeSamples_getElem (r : Raster) (ps : List (Fin 16 × Fin 23)) (q : Raster) (y : Fin 16) (x : Fin 23) :
    (writeSamples r ps q)[y][x] = if (y, x) ∈ ps then r[y][x] else q[y][x] := by
  induction ps generalizing q with
  | nil => simp [writeSamples]
  | cons p ps ih =>
    obtain ⟨y', x'⟩ := p
    rw [writeSamples, ih, withSample_getElem]
    by_cases later : (y, x) ∈ ps
    · simp [later]
    · by_cases here : y = y' ∧ x = x'
      · obtain ⟨rfl, rfl⟩ := here
        simp [later]
      · simp [later, here]

/-- Every sample is written. -/
theorem writeSamples_all (r q : Raster) : writeSamples r (List.finRange 16 ×ˢ List.finRange 23) q = r :=
  raster_ext fun y x => by rw [writeSamples_getElem, if_pos (by simp)]

theorem rasterAddr_toNat (y : Fin 16) (x : Fin 23) : (rasterAddr y x).toNat = y.val * 23 + x.val :=
  addrOf_toNat (by omega)

/-- No sample stands at the address of CMD. -/
theorem rasterAddr_ne_cmd (y : Fin 16) (x : Fin 23) : rasterAddr y x ≠ 0x184#10 := by
  intro h
  have place := rasterAddr_toNat y x
  rw [h, BitVec.toNat_ofNat] at place
  omega

theorem runSession_samples (r : Raster) (ps : List (Fin 16 × Fin 23)) (s : State) (records : List Record) :
    runSession (ps.map fun p => .wr (rasterAddr p.1 p.2) r[p.1][p.2]) s records =
      some ({ s with block := { s.block with raster := writeSamples r ps s.block.raster } }, records) := by
  induction ps generalizing s with
  | nil => rfl
  | cons p ps ih =>
    rw [List.map_cons, runSession_wr (rasterAddr_ne_cmd _ _), write_raster _ _ (rasterAddr_toNat ..), ih]
    rfl

theorem runSession_rasterWrites (r : Raster) (s : State) (records : List Record) :
    runSession (rasterWrites r) s records = some ({ s with block := { s.block with raster := r } }, records) := by
  have pixels : rasterWrites r =
      (List.finRange 16 ×ˢ List.finRange 23).map fun p => .wr (rasterAddr p.1 p.2) r[p.1][p.2] := by
    rw [show List.finRange 16 ×ˢ List.finRange 23 =
      (List.finRange 16).flatMap fun y => (List.finRange 23).map (Prod.mk y) from rfl]
    simp only [rasterWrites, List.map_flatMap, List.map_map, Function.comp_def]
  rw [pixels, runSession_samples, writeSamples_all]

theorem runSession_dimWrites (w h : Dim) (s : State) (records : List Record) :
    runSession (dimWrites w h) s records = some ({ s with block := { s.block with rw := w, rh := h } }, records) := by
  rw [dimWrites, runSession_wr (by decide), runSession_wr (by decide), runSession_wr (by decide),
    runSession_wr (by decide), runSession]
  simp only [write_rwLo, write_rwHi, write_rhLo, write_rhHi, withHi_withLo_bytes]

/-- A frame as the host presents it: its input, then FRAME. -/
theorem runSession_presentFrame (f : Presented) (s : State) (records : List Record) :
    runSession (presentFrame .frame f) s records =
      runSession [.frame] { s with block := s.block.withInput f } records := by
  rw [presentFrame, runSession_append, runSession_append, runSession_dimWrites, Option.bind_some,
    runSession_rasterWrites, Option.bind_some]
  rfl

end Sys2Proof.Machine
end

section
/-! ## The frames of a session (42_sequencing.md R140) -/

namespace Sys2Proof.Machine

/-- The previous frame the comparator sees, if there is one (41_delta_encoder.md R113). It is tied to the model's
`modelMask` by `changeMask_eq_modelMask`. -/
def Block.previous (b : Block) : Option PackedFrame := if b.prevValid then some b.prev else none

/-- ENCODE's mask is the functional model's. -/
theorem changeMask_eq_modelMask (b : Block) (cur : PackedFrame) :
    changeMask (!b.prevValid) cur b.prev = modelMask b.previous cur := by
  cases h : b.prevValid
  · rw [changeMask_of_first rfl, Block.previous, h]
    rfl
  · simp only [changeMask, Block.previous, h, blockDiffers_eq, Bool.not_true, Bool.false_or, if_true, modelMask]

/-- The functional model of a session that starts with an accepted frame. -/
theorem sessionModel_cons_of_accepted {f : Presented} (h : f.accepted) (prev : Option PackedFrame)
    (fs : List Presented) : (sessionModel prev (f :: fs)).1 =
      recordOf (modelMask prev (packFrame f.raster)) (packFrame f.raster) ::
        (sessionModel (some (packFrame f.raster)) fs).1 := by
  obtain ⟨hw, hh⟩ := h
  simp [sessionModel, hw, hh]

/-- FRAME on an accepted raster appends its record. -/
theorem runSession_frame_of_ready {s : State} (ready : s.block.ready) (records : List Record) {cur : PackedFrame}
    {m : Byte} (packed : packFrame s.block.raster = cur) (mask : modelMask s.block.previous cur = m) :
    runSession [.frame] s records =
      some ({ s with block := s.block.framed cur m }, records ++ [recordOf m cur]) := by
  have after : blockAfter .frame s.block = s.block.framed cur m := by
    rw [blockAfter, unlessFaulted_of_clear _ _ ready.1,
      packThenEncode_of_ready _ ready cur m packed (by rw [changeMask_eq_modelMask, mask])]
  have appended : recordsAfter .frame s.block (s.block.framed cur m) records = records ++ [recordOf m cur] := by
    simp [recordsAfter, startsSession, asksRecord, commandByte, ready.1]
  rw [runSession_cons, after, appended, runSession, repliesOf_of_not_rd (by simp), List.append_nil]

/-- A run of accepted frames appends the functional model's records and ends without a fault. -/
theorem runSession_accepted (fs : List Presented) (accepted : ∀ f ∈ fs, f.accepted) (s : State)
    (noFault : s.block.fault = false) (records : List Record) :
    ∃ t, runSession (fs.flatMap (presentFrame .frame)) s records =
      some (t, records ++ (sessionModel s.block.previous fs).1) ∧ t.block.fault = false := by
  induction fs generalizing s records with
  | nil => exact ⟨s, by simp [runSession, sessionModel], noFault⟩
  | cons f fs ih =>
    obtain ⟨first, others⟩ := List.forall_mem_cons.mp accepted
    have ready : (s.block.withInput f).ready := ⟨noFault, first⟩
    rw [List.flatMap_cons, runSession_append, runSession_presentFrame,
      runSession_frame_of_ready ready records rfl rfl, Option.bind_some]
    obtain ⟨t, run, clear⟩ := ih others { s with block := (s.block.withInput f).framed _ _ } noFault _
    refine ⟨t, run.trans ?_, clear⟩
    rw [sessionModel_cons_of_accepted first, List.append_assoc]
    rfl

/-- A session of accepted frames: SRST starts the records anew and drops the previous frame. -/
theorem runSession_hostSession (fs : List Presented) (accepted : ∀ f ∈ fs, f.accepted) (s : State)
    (records : List Record) : ∃ t, runSession (hostSession fs) s records = some (t, (sessionModel none fs).1) ∧
      t.block.fault = false := by
  rw [hostSession, runSession_cons]
  exact runSession_accepted fs accepted { s with block := s.block.sessionReset, replies := s.replies ++ [] } rfl []

end Sys2Proof.Machine
end

section
/-! ## Reading the record stream (41_delta_encoder.md R120) -/

namespace Sys2Proof.Machine

/-- Every record of the functional model is a mask and the blocks it selects. -/
theorem sessionModel_records (prev : Option PackedFrame) (fs : List Presented) :
    ∀ r ∈ (sessionModel prev fs).1, ∃ m cur, r = recordOf m cur := by
  induction fs generalizing prev with
  | nil => simp [sessionModel]
  | cons f fs ih =>
    rw [sessionModel]
    split
    · simp
    · exact List.forall_mem_cons.mpr ⟨⟨_, _, rfl⟩, ih _⟩

/-- The mask byte tells where a record ends. -/
theorem splitStream_records (rs : List Record) (h : ∀ r ∈ rs, ∃ m cur, r = recordOf m cur) :
    splitStream rs.length rs.flatten = rs := by
  induction rs with
  | nil => rfl
  | cons r rs ih =>
    obtain ⟨⟨m, cur, rfl⟩, others⟩ := List.forall_mem_cons.mp h
    have stream : (recordOf m cur :: rs).flatten = m :: (payload m cur ++ rs.flatten) := rfl
    rw [stream, List.length_cons, splitStream, List.take_left' (payload_length m cur),
      List.drop_left' (payload_length m cur), ih others, recordOf]

/-- A record has one of nine lengths. -/
theorem one_add_five_mul_popcount (m : Byte) : 1 + 5 * popcount m ∈ [1, 6, 11, 16, 21, 26, 31, 36, 41] := by
  have := popcount_le m
  interval_cases popcount m <;> decide

/-- A block read back from its bytes, with more bytes behind. -/
theorem blockOfBytes_append (p : PackedBlock) (bytes : List Byte) : blockOfBytes (p.toList ++ bytes) = p := by
  ext1 j hj
  simp [blockOfBytes, List.getElem?_append]

/-- Overwriting takes every selected block of the list from the payload and leaves the others. -/
theorem overwrite_getElem (m : Byte) (cur : PackedFrame) (is : List (Fin 8)) (d : PackedFrame) (k : Fin 8) :
    (overwrite m is (is.flatMap fun i => if m.getLsbD i.val then cur[i].toList else []) d)[k] =
      if k ∈ is ∧ m.getLsbD k.val = true then cur[k] else d[k] := by
  induction is generalizing d with
  | nil => simp [overwrite]
  | cons i is ih =>
    rw [overwrite, List.flatMap_cons]
    by_cases selected : m.getLsbD i.val = true
    · rw [if_pos selected, if_pos selected, blockOfBytes_append, List.drop_left' (by simp), ih]
      by_cases here : k = i
      · subst here
        simp [selected]
      · simp [here, Fin.val_ne_of_ne (Ne.symm here)]
    · rw [if_neg selected, if_neg selected, List.nil_append, ih]
      by_cases here : k = i
      · subst here
        rw [if_neg fun h => selected h.2, if_neg fun h => selected h.2]
      · simp [here]

/-- A record overwrites the selected blocks and leaves the others. -/
theorem applyRecord_recordOf_getElem (m : Byte) (cur d : PackedFrame) (k : Fin 8) :
    (applyRecord d (recordOf m cur))[k] = if m.getLsbD k.val then cur[k] else d[k] := by
  rw [recordOf, applyRecord, payload, overwrite_getElem]
  simp

/-- A block the mask does not select stands in the previous frame. -/
theorem unselected_eq {prev : Option PackedFrame} {cur : PackedFrame} {k : Fin 8}
    (h : ¬ (modelMask prev cur).getLsbD k.val = true) : ∃ p, prev = some p ∧ cur[k] = p[k] := by
  cases prev with
  | none =>
    have full : ∀ k : Fin 8, (0xFF#8).getLsbD k.val = true := by decide
    exact absurd (full k) h
  | some p =>
    rw [modelMask, maskOf_getLsbD, bne_iff_ne, not_not] at h
    exact ⟨p, rfl, h⟩

/-- A frame's record, applied to the frame before it, gives the frame; the first one does whatever it is applied to. -/
theorem applyRecord_modelMask {prev : Option PackedFrame} {d : PackedFrame} (before : ∀ p, prev = some p → d = p)
    (cur : PackedFrame) : applyRecord d (recordOf (modelMask prev cur) cur) = cur := by
  ext1 k hk
  have block := applyRecord_recordOf_getElem (modelMask prev cur) cur d ⟨k, hk⟩
  refine block.trans ?_
  split
  · rfl
  case isFalse unselected =>
    obtain ⟨p, same, eq⟩ := unselected_eq unselected
    rw [before p same]
    exact eq.symm

/-- The records of accepted frames give back the packed frames. -/
theorem reconstruct_sessionModel (fs : List Presented) (accepted : ∀ f ∈ fs, f.accepted)
    {prev : Option PackedFrame} {d : PackedFrame} (before : ∀ p, prev = some p → d = p) :
    reconstruct d (sessionModel prev fs).1 = fs.map fun f => packFrame f.raster := by
  induction fs generalizing prev d with
  | nil => rfl
  | cons f fs ih =>
    obtain ⟨first, others⟩ := List.forall_mem_cons.mp accepted
    rw [sessionModel_cons_of_accepted first, reconstruct, applyRecord_modelMask before, ih others (by simp),
      List.map_cons]

theorem reconstruct_length (d : PackedFrame) (rs : List Record) : (reconstruct d rs).length = rs.length := by
  induction rs generalizing d with
  | nil => rfl
  | cons r rs ih => rw [reconstruct, List.length_cons, List.length_cons, ih]

end Sys2Proof.Machine
end

section
/-! ## The obligation of the record stream -/

namespace Sys2Proof.Machine

/-- Settles O46: the session gives the functional model's records, and these split and reconstruct. -/
theorem streamRoundTrip : Obligations.StreamRoundTrip := by
  intro s fs accepted
  obtain ⟨t, run, clear⟩ := runSession_hostSession fs accepted s []
  have frames := reconstruct_sessionModel fs accepted (prev := none)
    (d := Vector.replicate 8 (Vector.replicate 5 0x00#8)) (by simp)
  refine ⟨t, _, run, clear, ?count, fun r hr => ?shape, splitStream_records _ (sessionModel_records none fs), frames⟩
  case count => rw [← reconstruct_length, frames, List.length_map]
  case shape =>
    obtain ⟨m, cur, rfl⟩ := sessionModel_records none fs r hr
    refine ⟨m, payload m cur, rfl, payload_length m cur, ?_⟩
    simpa using one_add_five_mul_popcount m

end Sys2Proof.Machine
end

section
/-! ## What a write to CMD runs, by FAULT and the byte (42_sequencing.md R130, R135) -/

namespace Sys2Proof.Machine

/-- An instruction with a command byte runs as the write of that byte to CMD. -/
theorem exec_wr_cmd_eq {i : Instr} {v : Byte} (h : commandByte i = some v) (s : State) :
    exec (.wr 0x184#10 v) s = exec i s :=
  (exec_of_command rfl s).trans (exec_of_command h s).symm

/-- While FAULT = 1 every byte but SRST's is ignored. -/
theorem command_of_faulted {b : Block} (faulted : b.fault = true) {v : Byte} (h : v ≠ 0x80#8) : b.command v = b := by
  simp [Block.command, faulted, h]

/-- While FAULT = 0 a byte outside the opcode map raises ILLEGAL_COMMAND. -/
theorem command_of_undefined_of_clear {b : Block} (noFault : b.fault = false) {v : Byte} (h : ¬ isCommand v) :
    b.command v = { b with fault := true, err := 3#3 } := by
  rw [command_of_undefined h, unlessFaulted_of_clear _ _ noFault]
  rfl

/-- A CMD8 word at the head of the host's list is taken from it and runs its byte. -/
theorem step_cmd8 {s : State} {v : Byte} {rest : List HostEvent} (hp : s.pending = .access (.cmd8 v) :: rest) :
    step s = .next { s with block := s.block.command v, pending := rest } :=
  (step_cons hp).trans (runWord_cmd8 v _)

/-- STATUS goes from 0x00 to 0x07 on an illegal byte (60_exceptions.md R154). -/
theorem status_of_illegal {b : Block} (h : b.status = 0x00#8) : b.illegal.status = 0x07#8 := by
  have prevValid : b.prevValid = false := by rw [← status_bit_prevValid, h]; rfl
  have curValid : b.curValid = false := by rw [← status_bit_curValid, h]; rfl
  simp [Block.illegal, Block.status, prevValid, curValid, Cause.code]

end Sys2Proof.Machine
end

section
/-! ## The obligations of the commands -/

namespace Sys2Proof.Machine

/-- Settles O16: a command byte runs as its instruction does, and the other bytes are ignored or illegal. -/
theorem cmdWriteDispatches : Obligations.CmdWriteDispatches := by
  refine fun s v => ⟨fun _ hv => ?restart, fun faulted hv => ?ignored, fun _ hv => ?pack, fun _ hv => ?encode,
    fun _ hv => ?frame, fun _ hv => ?srst, fun noFault hv => ?illegal⟩
  case ignored => rw [exec_wr, write_cmd, command_of_faulted faulted hv]
  case illegal => rw [exec_wr, write_cmd, command_of_undefined_of_clear noFault hv]
  all_goals
    subst hv
    exact exec_wr_cmd_eq rfl s

/-- Settles O32: both spellings of the byte run the same command on the block. -/
theorem illegalByteFaults : Obligations.IllegalByteFaults := by
  intro s v hv
  have raised := fun noFault => command_of_undefined_of_clear (b := s.block) noFault hv
  have ignored := fun faulted => command_of_faulted (b := s.block) (v := v) faulted fun h => hv (.inr (.inr (.inr h)))
  refine ⟨fun noFault => ⟨?_, status_of_illegal⟩, fun faulted => ?_,
    fun rest hp => ⟨fun noFault => ?_, fun faulted => ?_⟩⟩
  · rw [exec_wr, write_cmd, raised noFault]
  · rw [exec_wr, write_cmd, ignored faulted]
  · rw [step_cmd8 hp, raised noFault]
  · rw [step_cmd8 hp, ignored faulted]

/-- Settles O30: on an accepted raster ENCODE finds the frame PACK left, and on any other one FRAME ends with PACK. -/
theorem frameIsPackThenEncode : Obligations.FrameIsPackThenEncode := by
  refine fun s => ⟨fun ready => ?accepted, fun noFault mismatch => ?refused⟩
  case accepted =>
    have encoded := exec_encode_of_fresh (m := changeMask (!s.block.prevValid) (packFrame s.block.raster) s.block.prev)
      (s := { s with block := { s.block with cur := packFrame s.block.raster, curValid := true } }) ready.1 rfl rfl
    exact ⟨_, _, exec_pack_of_ready ready, encoded, exec_frame_of_ready ready rfl, ready.1, rfl, rfl⟩
  case refused =>
    rw [exec_frame, exec_pack, unlessFaulted_of_clear _ _ noFault, unlessFaulted_of_clear _ _ noFault,
      packThenEncode_of_mismatch _ mismatch]

/-- Settles O31: SRST's next state has the constants of R134, which SRST writes again. -/
theorem srstStartsSession : Obligations.SrstStartsSession :=
  fun s => ⟨_, exec_srst s, rfl, rfl, fun k => Vector.getElem_replicate k.isLt⟩

end Sys2Proof.Machine
end

section
/-! ## One frame of a session, whatever its geometry (42_sequencing.md R132, R137, R140) -/

namespace Sys2Proof.Machine

/-- The host's run is the session's run without its records. -/
theorem runAll_of_runSession {is : List Instr} {s t : State} {records records' : List Record}
    (h : runSession is s records = some (t, records')) : runAll is s = some t := by
  rw [← runSession_fst is s records, h, Option.map_some]

/-- A frame the host presents is one PACK accepts, or one it refuses (40_packer.md R90). -/
theorem Presented.accepted_or_mismatch (f : Presented) : f.accepted ∨ (f.rw ≠ 23#16 ∨ f.rh ≠ 16#16) := by
  rw [Presented.accepted]
  tauto

/-- The functional model goes on behind an accepted frame. -/
theorem sessionModel_cons_of_accepted_snd {f : Presented} (h : f.accepted) (prev : Option PackedFrame)
    (fs : List Presented) : (sessionModel prev (f :: fs)).2 = (sessionModel (some (packFrame f.raster)) fs).2 := by
  obtain ⟨hw, hh⟩ := h
  simp [sessionModel, hw, hh]

/-- The functional model ends at the first frame PACK refuses. -/
theorem sessionModel_cons_of_mismatch {f : Presented} (h : f.rw ≠ 23#16 ∨ f.rh ≠ 16#16)
    (prev : Option PackedFrame) (fs : List Presented) : sessionModel prev (f :: fs) = ([], true) := by
  rw [sessionModel, if_pos h]

/-- An accepted frame, packed and encoded: its record's mask is the functional model's. -/
theorem packThenEncode_withInput_of_accepted {b : Block} (noFault : b.fault = false) {f : Presented}
    (h : f.accepted) : unlessFaulted Block.packThenEncode (b.withInput f) =
      (b.withInput f).framed (packFrame f.raster) (modelMask b.previous (packFrame f.raster)) := by
  rw [unlessFaulted_of_clear (b.withInput f) _ noFault, packThenEncode_of_ready (b.withInput f) ⟨noFault, h⟩ _ _ rfl
    (changeMask_eq_modelMask (b.withInput f) _)]
  rfl

/-- A frame of any other geometry ends in GEOMETRY_MISMATCH. -/
theorem packThenEncode_withInput_of_mismatch {b : Block} (noFault : b.fault = false) {f : Presented}
    (h : f.rw ≠ 23#16 ∨ f.rh ≠ 16#16) : unlessFaulted Block.packThenEncode (b.withInput f) =
      { b.withInput f with curValid := false, fault := true, err := 1#3 } := by
  rw [unlessFaulted_of_clear (b.withInput f) _ noFault, packThenEncode_of_mismatch _ h, Block.pack_of_mismatch _ h]

end Sys2Proof.Machine
end

section
/-! ## A session of frames of whatever geometry (42_sequencing.md R140) -/

namespace Sys2Proof.Machine

/-- One frame of a session: its effect on the block, and a record where FRAME succeeds. -/
theorem runSession_frame (f : Presented) (s : State) (records : List Record) {b : Block}
    (after : unlessFaulted Block.packThenEncode (s.block.withInput f) = b) :
    runSession (presentFrame .frame f) s records =
      some ({ s with block := b }, recordsAfter .frame (s.block.withInput f) b records) := by
  rw [runSession_presentFrame, runSession_cons, repliesOf_of_not_rd (by simp), List.append_nil, blockAfter, after,
    runSession]

/-- A FRAME that ends with FAULT = 1 makes no record (R138). -/
theorem recordsAfter_frame_of_faulted {t : Block} (faulted : t.fault = true) (b : Block) (records : List Record) :
    recordsAfter .frame b t records = records := by
  simp [recordsAfter, startsSession, asksRecord, commandByte, faulted]

/-- The frames issued behind a fault make no record and leave FAULT and ERR (60_exceptions.md R157). -/
theorem runSession_frames_of_faulted (fs : List Presented) (s : State) (faulted : s.block.fault = true)
    (records : List Record) : ∃ t, runSession (fs.flatMap (presentFrame .frame)) s records = some (t, records) ∧
      t.block.fault = true ∧ t.block.err = s.block.err := by
  induction fs generalizing s with
  | nil => exact ⟨s, rfl, faulted, rfl⟩
  | cons f fs ih =>
    obtain ⟨t, run, fault, err⟩ := ih { s with block := s.block.withInput f } faulted
    refine ⟨t, ?_, fault, err⟩
    rw [List.flatMap_cons, runSession_append,
      runSession_frame f s records (unlessFaulted_of_fault (s.block.withInput f) _ faulted), Option.bind_some,
      recordsAfter_frame_of_faulted (t := s.block.withInput f) faulted, run]

/-- The frames of a session append the functional model's records, and end faulted where it does. -/
theorem runSession_frames (fs : List Presented) (s : State) (noFault : s.block.fault = false)
    (records : List Record) : ∃ t, runSession (fs.flatMap (presentFrame .frame)) s records =
        some (t, records ++ (sessionModel s.block.previous fs).1) ∧
      t.block.fault = (sessionModel s.block.previous fs).2 ∧ (t.block.fault = true → t.block.err = 1#3) := by
  induction fs generalizing s records with
  | nil => exact ⟨s, by simp [runSession, sessionModel], noFault, by simp [noFault]⟩
  | cons f fs ih =>
    rw [List.flatMap_cons, runSession_append]
    obtain accepted | mismatch := f.accepted_or_mismatch
    · have ready : (s.block.withInput f).ready := ⟨noFault, accepted⟩
      rw [runSession_presentFrame, runSession_frame_of_ready ready records rfl rfl, Option.bind_some,
        sessionModel_cons_of_accepted accepted, sessionModel_cons_of_accepted_snd accepted]
      obtain ⟨t, run, fault, err⟩ := ih { s with block := (s.block.withInput f).framed _ _ } noFault _
      exact ⟨t, run.trans (by rw [List.append_assoc]; rfl), fault, err⟩
    · rw [runSession_frame f s records (packThenEncode_withInput_of_mismatch noFault mismatch), Option.bind_some,
        recordsAfter_frame_of_faulted rfl, sessionModel_cons_of_mismatch mismatch, List.append_nil]
      obtain ⟨t, run, fault, err⟩ := runSession_frames_of_faulted fs
        { s with block := { s.block.withInput f with curValid := false, fault := true, err := 1#3 } } rfl records
      exact ⟨t, run, fault, fun _ => err⟩

end Sys2Proof.Machine
end

section
/-! ## One iteration of the host's loop (42_sequencing.md R137) -/

namespace Sys2Proof.Machine

/-- The record of a frame lies in OUT. -/
theorem Block.framed_outLen_le (b : Block) (cur : PackedFrame) (m : Byte) :
    (b.framed cur m).outLen.toNat ≤ 41 := by
  rw [Block.framed_outLen_toNat, ← recordOf_length m cur]
  exact recordOf_length_le m cur

theorem runAll_rd (a : Addr) (s : State) :
    runAll [.rd a] s = some { s with replies := s.replies ++ [s.block.read a] } := rfl

@[simp] theorem lastReply_append_singleton (b : Block) (events : List HostEvent) (rs : List Byte) (v : Byte)
    (n : Nat) : State.lastReply ⟨b, events, rs ++ [v], n⟩ = v := by
  simp [State.lastReply]

/-- The reads of `OUT[0 .. OUT_LEN-1]` answer the record. -/
theorem runAll_recordReads (s : State) (h : s.block.outLen.toNat ≤ 41) :
    runAll (recordReads s.block.outLen.toNat) s = some { s with replies := s.replies ++ s.block.record } := by
  rw [← reads_of_out s.block h]
  exact runAll_of_runSession (runSession_readsFrom 0x190 _ s [])

/-- A frame as the host has it encoded, by either way: its input, then PACK and ENCODE behind the FAULT guard. -/
theorem runAll_presentFrame (way : EncodeWay) (f : Presented) (s : State) :
    runAll (presentFrame way f) s =
      some { s with block := unlessFaulted Block.packThenEncode (s.block.withInput f) } := by
  rw [presentFrame, runAll_append, runAll_append, runAll_of_runSession (runSession_dimWrites f.rw f.rh s []),
    Option.bind_some, runAll_of_runSession (runSession_rasterWrites f.raster _ []), Option.bind_some, runAll_commands]
  rfl

variable (way : EncodeWay) (f : Presented) (fs : List (Option (EncodeWay × Presented))) (s : State)
  (sink : List Record) {b : Block}

/-- The loop's accesses up to the read of STATUS. -/
theorem runAll_presentFrame_status (after : unlessFaulted Block.packThenEncode (s.block.withInput f) = b) :
    runAll (presentFrame way f ++ [.rd 0x185#10]) s =
      some { s with block := b, replies := s.replies ++ [b.status] } := by
  rw [runAll_append, runAll_presentFrame, after, Option.bind_some, runAll_rd, read_statusAddr]

/-- The loop ends where STATUS shows FAULT = 1 (R137 step 4). -/
theorem hostLoop_cons_of_faulted (after : unlessFaulted Block.packThenEncode (s.block.withInput f) = b)
    (faulted : b.fault = true) : hostLoop (some (way, f) :: fs) s sink =
      some ({ s with block := b, replies := s.replies ++ [b.status] }, sink, .faulted) := by
  rw [hostLoop, runAll_presentFrame_status way f s after, Option.bind_some, lastReply_append_singleton,
    status_bit_fault, if_pos faulted]

/-- Where STATUS shows FAULT = 0 the loop reads the record, hands it to the sink and goes on (R137 step 5). -/
theorem hostLoop_cons_of_clear (after : unlessFaulted Block.packThenEncode (s.block.withInput f) = b)
    (noFault : b.fault = false) (fits : b.outLen.toNat ≤ 41) : hostLoop (some (way, f) :: fs) s sink =
      hostLoop fs { s with block := b, replies := s.replies ++ [b.status] ++ [b.outLen] ++ b.record }
        (sink ++ [b.record]) := by
  rw [hostLoop, runAll_presentFrame_status way f s after, Option.bind_some, lastReply_append_singleton,
    status_bit_fault, if_neg (by simp [noFault]), runAll_rd, Option.bind_some, read_outLen, lastReply_append_singleton]
  have reads := runAll_recordReads { s with block := b, replies := s.replies ++ [b.status] ++ [b.outLen] } fits
  rw [reads, Option.bind_some, List.drop_left]

end Sys2Proof.Machine
end

section
/-! ## The host's loop over the frames of a session (42_sequencing.md R137, R140) -/

namespace Sys2Proof.Machine

/-- The loop over frames hands the functional model's records to the sink. It ends by the fault where the model does,
whatever stands behind the frames; otherwise it goes on behind them. -/
theorem hostLoop_frames (fs : List (EncodeWay × Presented)) (s : State) (noFault : s.block.fault = false)
    (sink : List Record) : ∃ t, ∀ rest, hostLoop (fs.map some ++ rest) s sink =
      if (sessionModel s.block.previous (fs.map Prod.snd)).2 then
        some (t, sink ++ (sessionModel s.block.previous (fs.map Prod.snd)).1, .faulted)
      else hostLoop rest t (sink ++ (sessionModel s.block.previous (fs.map Prod.snd)).1) := by
  induction fs generalizing s sink with
  | nil => exact ⟨s, fun rest => by simp [sessionModel]⟩
  | cons frame fs ih =>
    obtain ⟨way, f⟩ := frame
    simp only [List.map_cons, List.cons_append]
    obtain accepted | mismatch := f.accepted_or_mismatch
    · have after := packThenEncode_withInput_of_accepted noFault accepted
      obtain ⟨t, run⟩ := ih { s with block := (s.block.withInput f).framed _ _, replies := _ } noFault _
      refine ⟨t, fun rest => ?_⟩
      rw [sessionModel_cons_of_accepted accepted, sessionModel_cons_of_accepted_snd accepted, List.append_cons,
        hostLoop_cons_of_clear way f _ s sink after noFault (Block.framed_outLen_le ..), Block.framed_record]
      exact run rest
    · have after := packThenEncode_withInput_of_mismatch noFault mismatch
      rw [sessionModel_cons_of_mismatch mismatch, List.append_nil]
      exact ⟨_, fun rest => hostLoop_cons_of_faulted way f _ s sink after rfl⟩

end Sys2Proof.Machine
end

section
/-! ## The obligations of the session and the host's loop -/

namespace Sys2Proof.Machine

/-- Settles O44: SRST leaves no fault and no previous frame, and the frames follow the functional model from there. -/
theorem sessionIsTheFunctionalModel : Obligations.SessionIsTheFunctionalModel := by
  intro s fs
  rw [hostSession, runSession_cons]
  exact runSession_frames fs { s with block := s.block.sessionReset, replies := s.replies ++ [] } rfl []

/-- Settles O45: after SRST the loop follows the functional model, and both ends of the list leave the state where the
frames did. -/
theorem hostLoopDeliversTheModel : Obligations.HostLoopDeliversTheModel := by
  intro s fs
  obtain ⟨t, run⟩ := hostLoop_frames fs { s with block := s.block.sessionReset } rfl []
  have start (frames) : hostRun frames s = hostLoop frames { s with block := s.block.sessionReset } [] := rfl
  have fresh : Block.previous s.block.sessionReset = none := rfl
  simp only [fresh, List.nil_append] at run
  refine ⟨t, ?finished, fun rest => ?decodeFailed⟩
  case finished =>
    rw [start, ← List.append_nil (fs.map some), run]
    split <;> rfl
  case decodeFailed =>
    rw [start, run]
    split <;> rfl

end Sys2Proof.Machine
end

section
/-! ## A fault while it lasts, and its end (60_exceptions.md R157, R158) -/

namespace Sys2Proof.Machine

/-- With nothing pending the host has no next event. -/
theorem nextEvent_nil {s : State} (h : s.pending = []) : s.nextEvent = none := by
  simp only [State.nextEvent, h]

/-- While FAULT = 1 every spelling of a command but SRST's changes nothing. -/
theorem exec_command_of_faulted {s : State} (faulted : s.block.fault = true) {i : Instr} {v : Byte}
    (hi : commandByte i = some v) (hv : v ≠ 0x80#8) : exec i s = .next s := by
  rw [exec_of_command hi, command_of_faulted faulted hv]

/-- SRST's byte runs in every state. -/
theorem command_srst (b : Block) : b.command 0x80#8 = b.sessionReset :=
  (blockAfter_of_command (i := .srst) rfl b).symm

/-- SRST is the byte 0x80 written to CMD, in either spelling. -/
theorem startsSession_iff {i : Instr} : startsSession i = true ↔ commandByte i = some 0x80#8 := decide_eq_true_iff

/-- The two blocks hold the same fault, or none: FAULT and ERR (10_state.md R35, R36). -/
structure Block.SameFault (b c : Block) : Prop where
  fault : c.fault = b.fault
  err : c.err = b.err

/-- A data write or a read leaves FAULT and ERR. -/
theorem blockAfter_sameFault_of_none {i : Instr} (h : commandByte i = none) (b : Block) :
    b.SameFault (blockAfter i b) := by
  rw [blockAfter_of_none h]
  exact ⟨rfl, rfl⟩

/-- While FAULT = 1 every access but SRST leaves FAULT and ERR. -/
theorem blockAfter_sameFault_of_faulted {b : Block} (faulted : b.fault = true) {i : Instr}
    (h : ¬ startsSession i = true) : b.SameFault (blockAfter i b) := by
  cases hc : commandByte i with
  | none => exact blockAfter_sameFault_of_none hc b
  | some v =>
    have notSrst : v ≠ 0x80#8 := by
      rintro rfl
      exact h (startsSession_iff.mpr hc)
    rw [blockAfter_of_command hc, command_of_faulted faulted notSrst]
    exact ⟨rfl, rfl⟩

end Sys2Proof.Machine
end

section
/-! ## How the counters move (60_exceptions.md R162, 10_state.md R32, R33) -/

namespace Sys2Proof.Machine

/-- The two blocks hold the same counters. -/
structure Block.SameCounters (b c : Block) : Prop where
  fcount : c.fcount = b.fcount
  bcount : c.bcount = b.bcount

/-- `c` has counted one record more than `b`, its own, and neither block is faulted (41_delta_encoder.md R117). -/
structure Block.CountsRecord (b c : Block) : Prop where
  fcount : c.fcount.toNat = (b.fcount.toNat + 1) % 2 ^ 32
  bcount : c.bcount.toNat = (b.bcount.toNat + c.outLen.toNat) % 2 ^ 32
  before : b.fault = false
  after : c.fault = false

variable {b : Block}

theorem Block.SameSession.sameCounters {c : Block} (h : b.SameSession c) : b.SameCounters c := ⟨h.fcount, h.bcount⟩

theorem framed_countsRecord (noFault : b.fault = false) (cur : PackedFrame) (m : Byte) :
    b.CountsRecord (b.framed cur m) :=
  ⟨b.framed_fcount_toNat cur m, b.framed_bcount_toNat cur m, noFault, noFault⟩

/-- ENCODE counts its record, or faults and counts none. -/
theorem encode_counters (noFault : b.fault = false) : b.SameCounters b.encode ∨ b.CountsRecord b.encode := by
  cases fresh : b.curValid
  · rw [b.encode_of_stale fresh]
    exact .inl ⟨rfl, rfl⟩
  · rw [b.encode_fields fresh _ rfl]
    exact .inr (framed_countsRecord noFault b.cur _)

/-- FRAME counts its record, or faults and counts none. -/
theorem packThenEncode_counters (noFault : b.fault = false) :
    b.SameCounters b.packThenEncode ∨ b.CountsRecord b.packThenEncode := by
  obtain accepted | mismatch := geometry_ok_or_mismatch b
  · rw [packThenEncode_of_ready b ⟨noFault, accepted⟩ _ _ rfl rfl]
    exact .inr (framed_countsRecord noFault _ _)
  · rw [packThenEncode_of_mismatch b mismatch]
    exact .inl (pack_sameSession b).sameCounters

/-- Every access leaves the counters, or is SRST, or asks for a record and counts it. -/
theorem blockAfter_counters (i : Instr) (b : Block) :
    b.SameCounters (blockAfter i b) ∨ (startsSession i = true ∧ blockAfter i b = b.sessionReset) ∨
      (asksRecord i = true ∧ b.CountsRecord (blockAfter i b)) := by
  rw [blockAfter_eq_instrOp i rfl]
  refine instrOp_cases (motive := fun f => b.SameCounters (f b) ∨ (startsSession i = true ∧ f b = b.sessionReset) ∨
    (asksRecord i = true ∧ b.CountsRecord (f b))) b.fault i ?data ?ignored ?srst ?pack ?encode ?frame ?illegal
  case data =>
    intro hc
    rw [blockAfter_of_none hc]
    exact .inl ⟨rfl, rfl⟩
  case ignored => exact fun _ => .inl ⟨rfl, rfl⟩
  case srst => exact fun hc => .inr (.inl ⟨startsSession_iff.mpr hc, rfl⟩)
  case pack => exact fun _ _ => .inl (pack_sameSession b).sameCounters
  case encode =>
    intro noFault hc
    have asks : asksRecord i = true := by simp [asksRecord, hc]
    exact (encode_counters noFault).imp id fun counted => .inr ⟨asks, counted⟩
  case frame =>
    intro noFault hc
    have asks : asksRecord i = true := by simp [asksRecord, hc]
    exact (packThenEncode_counters noFault).imp id fun counted => .inr ⟨asks, counted⟩
  case illegal => exact fun _ _ => .inl ⟨rfl, rfl⟩

/-- A byte outside the opcode map leaves the counters. -/
theorem command_sameCounters_of_undefined {v : Byte} (h : ¬ isCommand v) (b : Block) :
    b.SameCounters (b.command v) := by
  rw [command_of_undefined h]
  cases hf : b.fault
  · rw [unlessFaulted_of_clear _ _ hf]
    exact ⟨rfl, rfl⟩
  · rw [unlessFaulted_of_fault _ _ hf]
    exact ⟨rfl, rfl⟩

end Sys2Proof.Machine
end

section
/-! ## The obligations of the faults and the counters -/

namespace Sys2Proof.Machine

/-- Settles O7: the host has no next event. -/
theorem idleStepHoldsState : Obligations.IdleStepHoldsState := by
  intro s idle
  rw [step, nextEvent_nil idle]
  exact State.idle_eq s

/-- Settles O9: `exec` answers the instruction's effect and reply. -/
theorem everyAccessCompletes : Obligations.EveryAccessCompletes := fun i s => ⟨_, exec_eq i s⟩

/-- Settles O18: FRAME ends with PACK's fault. -/
theorem geometryMismatchIsPrecise : Obligations.GeometryMismatchIsPrecise := by
  intro s noFault mismatch
  rw [exec_pack, exec_frame, unlessFaulted_of_clear _ _ noFault, unlessFaulted_of_clear _ _ noFault,
    packThenEncode_of_mismatch _ mismatch, Block.pack_of_mismatch _ mismatch]
  exact ⟨rfl, rfl⟩

/-- Settles O27: ENCODE finds CUR stale and raises. -/
theorem encodeWithoutFreshFrameFaults : Obligations.EncodeWithoutFreshFrameFaults := by
  intro s noFault stale
  rw [exec_encode, unlessFaulted_of_clear _ _ noFault, Block.encode_of_stale _ stale]
  rfl

/-- Settles O33: the commands are ignored, and a data write touches neither FAULT nor ERR. -/
theorem faultIsSticky : Obligations.FaultIsSticky := by
  refine fun s faulted => ⟨exec_command_of_faulted faulted rfl (by decide),
    exec_command_of_faulted faulted rfl (by decide), exec_command_of_faulted faulted rfl (by decide),
    fun v hv => exec_command_of_faulted faulted rfl hv, exec_rd s, fun a v ha => ?write⟩
  case write =>
    obtain ⟨hfault, herr⟩ := blockAfter_sameFault_of_none (commandByte_wr_of_ne ha v) s.block
    exact ⟨_, exec_wr s a v, read_write_same s.block v, hfault.trans faulted, herr⟩

/-- Settles O34: each of the four kinds of step leaves FAULT and ERR, or is one of the two events that clear them. -/
theorem onlySrstOrPowerOnEndsFault : Obligations.OnlySrstOrPowerOnEndsFault := by
  refine ⟨fun s t hstep faulted stays => ?kept, ?ended⟩
  case kept =>
    obtain ⟨-, rfl⟩ | ⟨rest, hp, -⟩ | ⟨w, i, rest, hp, hd, rfl⟩ | ⟨op, rest, -, undefined, rfl⟩ :=
      step_next_cases hstep
    · exact ⟨faulted, rfl⟩
    · exact absurd ⟨rest, .inl hp⟩ stays
    · have notSrst : ¬ startsSession i = true := fun starts => stays ⟨rest, .inr ⟨w, i, hp, hd, starts⟩⟩
      obtain ⟨hfault, herr⟩ := blockAfter_sameFault_of_faulted faulted notSrst
      exact ⟨hfault.trans faulted, herr⟩
    · have notSrst : op ≠ 0x80#8 := fun h => undefined (.inr (.inr (.inr h)))
      rw [command_of_faulted faulted notSrst]
      exact ⟨faulted, rfl⟩
  case ended =>
    rintro s ⟨rest, hp | ⟨w, i, hp, hd, starts⟩⟩
    · exact ⟨_, step_cons hp, rfl, rfl, rfl, rfl, rfl⟩
    · rw [stepRunsDecodedInstruction s w rest i hp hd, exec_of_command (startsSession_iff.mp starts), command_srst]
      exact ⟨_, rfl, rfl, rfl, rfl, rfl, rfl⟩

/-- Settles O35: each byte runs as its command; a defined byte that passes both checks raises nothing. -/
theorem faultPriority : Obligations.FaultPriority := by
  refine fun s v => ⟨fun faulted hv => exec_command_of_faulted faulted rfl hv, fun noFault => ?_⟩
  split_ifs with hcommand hmismatch hstale
  · obtain ⟨rfl | rfl, mismatch⟩ := hmismatch
    · exact ⟨_, (exec_wr_cmd_eq (i := .pack) rfl s).trans (geometryMismatchIsPrecise s noFault mismatch).1, rfl, rfl⟩
    · exact ⟨_, (exec_wr_cmd_eq (i := .frame) rfl s).trans (geometryMismatchIsPrecise s noFault mismatch).2, rfl, rfl⟩
  · obtain ⟨rfl, stale⟩ := hstale
    exact ⟨_, (exec_wr_cmd_eq (i := .encode) rfl s).trans (encodeWithoutFreshFrameFaults s noFault stale), rfl, rfl⟩
  · have ready (h : v = 0x01#8 ∨ v = 0x03#8) : s.block.ready :=
      ⟨noFault, (geometry_ok_or_mismatch s.block).resolve_right fun h' => hmismatch ⟨h, h'⟩⟩
    obtain rfl | rfl | rfl | rfl := hcommand
    · exact ⟨_, (exec_wr_cmd_eq (i := .pack) rfl s).trans (exec_pack_of_ready (ready (.inl rfl))), noFault⟩
    · have fresh : s.block.curValid = true := Bool.eq_true_of_not_eq_false fun h => hstale ⟨rfl, h⟩
      exact ⟨_, (exec_wr_cmd_eq (i := .encode) rfl s).trans (exec_encode_of_fresh noFault fresh rfl), noFault⟩
    · exact ⟨_, (exec_wr_cmd_eq (i := .frame) rfl s).trans (exec_frame_of_ready (ready (.inr rfl)) rfl), noFault⟩
    · exact ⟨_, (exec_wr_cmd_eq (i := .srst) rfl s).trans (exec_srst s), rfl⟩
  · rw [exec_wr, write_cmd, command_of_undefined_of_clear noFault hcommand]
    exact ⟨_, rfl, rfl, rfl⟩

/-- Settles O38: an idle step and an undefined byte leave the counters, power-on clears them, and an access leaves,
clears or advances them. -/
theorem countersMoveTogether : Obligations.CountersMoveTogether := by
  intro s t hstep
  obtain ⟨-, rfl⟩ | ⟨rest, hp, rfl⟩ | ⟨w, i, rest, hp, hd, rfl⟩ | ⟨op, rest, -, undefined, rfl⟩ := step_next_cases hstep
  · exact .inl ⟨rfl, rfl⟩
  · exact .inr (.inl ⟨rfl, rfl, rfl, rest, .inl hp⟩)
  · obtain ⟨hf, hb⟩ | ⟨starts, cleared⟩ | ⟨asks, ⟨hf, hb, before, after⟩⟩ := blockAfter_counters i s.block
    · exact .inl ⟨hf, hb⟩
    · rw [cleared]
      exact .inr (.inl ⟨rfl, rfl, rfl, rest, .inr ⟨w, i, hp, hd, starts⟩⟩)
    · exact .inr (.inr ⟨hf, hb, before, after, w, i, rest, hp, hd, asks⟩)
  · obtain ⟨hf, hb⟩ := command_sameCounters_of_undefined undefined s.block
    exact .inl ⟨hf, hb⟩

end Sys2Proof.Machine
end

section
/-! ## The block after a power-on (70_reset_and_hazards.md R170) -/

namespace Sys2Proof.Machine

theorem Block.powerOn_out_getElem (n : Nat) (k : Fin 41) : (Block.powerOn n).out[k] = 0x00#8 := by
  rw [Block.powerOn_out, Fin.getElem_fin, Vector.getElem_replicate]

/-- STATUS is made of FAULT, ERR and the two valid bits (10_state.md R34), and a power-on clears all four. -/
@[simp] theorem Block.powerOn_status (n : Nat) : (Block.powerOn n).status = 0x00#8 := by
  simp [Block.status]

/-- R170 for the block itself, whichever power-on it is: the count numbers only the bytes left unspecified. -/
theorem Block.powerOn_specified (n : Nat) :
    (Block.powerOn n).rw = 0#16 ∧ (Block.powerOn n).rh = 0#16 ∧ (Block.powerOn n).curValid = false ∧
      (Block.powerOn n).prevValid = false ∧ (Block.powerOn n).mask = 0x00#8 ∧
      (∀ k : Fin 41, (Block.powerOn n).out[k] = 0x00#8) ∧ (Block.powerOn n).outLen = 0x00#8 ∧
      (Block.powerOn n).fcount = 0#32 ∧ (Block.powerOn n).bcount = 0#32 ∧ (Block.powerOn n).fault = false ∧
      (Block.powerOn n).err = 0#3 ∧ (Block.powerOn n).read 0x185#10 = 0x00#8 :=
  ⟨powerOn_rw n, powerOn_rh n, powerOn_curValid n, powerOn_prevValid n, powerOn_mask n, powerOn_out_getElem n,
    powerOn_outLen n, powerOn_fcount n, powerOn_bcount n, powerOn_fault n, powerOn_err n,
    (read_statusAddr _).trans (powerOn_status n)⟩

/-- A power-on at the head of the host's events gives the block the next power-on's values, whatever it held. -/
theorem step_of_powerOn {s : State} {rest : List HostEvent} (h : s.pending = .powerOn :: rest) :
    step s = .next { s with
      block := Block.powerOn (s.powerOns + 1), pending := rest, powerOns := s.powerOns + 1 } :=
  (step_cons h).trans (State.powerCycle_eq _)

/-- Settles O8: a power-on event ends in a block of `Block.powerOn`, and the reset state's block is the first of them. -/
theorem powerOnValues : Obligations.PowerOnValues :=
  ⟨fun s _ h => ⟨Block.powerOn (s.powerOns + 1), s.powerOns + 1, step_of_powerOn h, Block.powerOn_specified _⟩,
    Block.powerOn_specified 0⟩

end Sys2Proof.Machine
end
